-- ==== Sys2Proof/Word.lean ====
section
/-! DEFINITION. The 32-bit word, the byte and the four register names (00_scope R7, 10_state R20). -/

namespace Sys2Proof

/-- A register, the pc, a literal, a heap cell, a stack value: 32 bits, unsigned (R7, R9). -/
abbrev Word := BitVec 32

/-- A byte of the program image (R43, R60). -/
abbrev Byte := BitVec 8

/-- The four general registers (R20). -/
inductive Reg where
  | a
  | b
  | c
  | d
deriving DecidableEq, Repr

end Sys2Proof
end

