-- ==== Sys2Proof/Config.lean ====
section
/-! DEFINITION. The parameters that no source fixes (00_scope R8): the capacities of heap and stack, and the map
from opcode byte to instruction. They are data of the machine's state (`State.params`), so that every statement
ranges over them; the numbers below are only what `State.reset` starts with (notes/assumptions/1.md). -/

namespace Sys2Proof

/-- The operations an opcode byte can select (R107, R108): the 39 mnemonics, without operands. -/
inductive Op where
  | exit
  | pushLit | pushReg | pushHeap | popReg | popHeap | dup
  | movLitReg | movLitHeap | movHeapReg | movRegHeap | movRegReg | movHeapHeap
  | mathAddReg | mathSubReg | mathMulReg | mathDivReg
  | mathAddStack | mathSubStack | mathMulStack | mathDivStack
  | bitNotReg | bitAndReg | bitOrReg | bitXorReg
  | bitNotStack | bitAndStack | bitOrStack | bitXorStack
  | cmpRegReg | cmpRegLit | cmpStackLit
  | jmp | jmpEq | jmpNe | jmpGt | jmpSm | jmpOv
  | syscall
deriving DecidableEq, Repr

/-- `OPCODE_MAP` (R8, R107): a byte that the list does not name is an undefined opcode (R110). -/
abbrev OpcodeMap := List (Byte × Op)

/-- What a byte selects; where a list names a byte twice the first entry counts (notes/assumptions/13.md). -/
def OpcodeMap.find : OpcodeMap → Byte → Option Op
  | [], _ => none
  | (k, op) :: m, b => if k = b then some op else OpcodeMap.find m b

/-- The open parameters of R8. -/
structure Params where
  /-- `HEAP_INIT_CAP`, in cells. -/
  heapInitCap : Nat
  /-- `HEAP_CAP_LIMIT`, in cells. -/
  heapCapLimit : Nat
  /-- `STACK_INIT_CAP`, in values. -/
  stackInitCap : Nat
  /-- `STACK_CAP_LIMIT`, in values. -/
  stackCapLimit : Nat
  /-- `OPCODE_MAP`. -/
  opcodeMap : OpcodeMap
deriving DecidableEq, Repr

/-- DESIGN CHOICE (notes/assumptions/1.md, unsafe): `HEAP_INIT_CAP` of `State.reset`. -/
def Config.heapInitCap : Nat := 0

/-- DESIGN CHOICE (notes/assumptions/1.md, unsafe): `HEAP_CAP_LIMIT` of `State.reset`, the whole address space. -/
def Config.heapCapLimit : Nat := 4294967296

/-- DESIGN CHOICE (notes/assumptions/1.md, unsafe): `STACK_INIT_CAP` of `State.reset`. -/
def Config.stackInitCap : Nat := 0

/-- DESIGN CHOICE (notes/assumptions/1.md, unsafe): `STACK_CAP_LIMIT` of `State.reset`. -/
def Config.stackCapLimit : Nat := 4294967296

end Sys2Proof
end

