-- ==== Sys2Proof/Syntax.lean ====
section
/-! DEFINITION. The instructions (30_encoding R108), one constructor per row of spec/opcode_table.json, operands in
fetch order (R105). A register operand is one of the four registers: a byte that names none never becomes an
instruction, because decoding it raises the fault (R102, notes/assumptions/12.md). An undefined opcode is no row of
the table and no constructor (R110, notes/assumptions/14.md). -/

namespace Sys2Proof

inductive Instr where
  | exit
  | pushLit (l : Word)
  | pushReg (r : Reg)
  | pushHeap (l : Word)
  | popReg (r : Reg)
  | popHeap (l : Word)
  | dup
  | movLitReg (rd : Reg) (l : Word)
  | movLitHeap (ad : Word) (l : Word)
  | movHeapReg (rd : Reg) (as : Word)
  | movRegHeap (ad : Word) (rs : Reg)
  | movRegReg (rd : Reg) (rs : Reg)
  | movHeapHeap (ad : Word) (as : Word)
  | mathAddReg (ra : Reg) (rb : Reg)
  | mathSubReg (ra : Reg) (rb : Reg)
  | mathMulReg (ra : Reg) (rb : Reg)
  | mathDivReg (ra : Reg) (rb : Reg)
  | mathAddStack
  | mathSubStack
  | mathMulStack
  | mathDivStack
  | bitNotReg (r : Reg)
  | bitAndReg (ra : Reg) (rb : Reg)
  | bitOrReg (ra : Reg) (rb : Reg)
  | bitXorReg (ra : Reg) (rb : Reg)
  | bitNotStack
  | bitAndStack
  | bitOrStack
  | bitXorStack
  | cmpRegReg (ra : Reg) (rb : Reg)
  | cmpRegLit (ra : Reg) (l : Word)
  | cmpStackLit (l : Word)
  | jmp (t : Word)
  | jmpEq (t : Word)
  | jmpNe (t : Word)
  | jmpGt (t : Word)
  | jmpSm (t : Word)
  | jmpOv (t : Word)
  | syscall
deriving DecidableEq, Repr

/-- The operation of an instruction, without its operands. -/
def Instr.op : Instr → Op
  | .exit => .exit
  | .pushLit _ => .pushLit
  | .pushReg _ => .pushReg
  | .pushHeap _ => .pushHeap
  | .popReg _ => .popReg
  | .popHeap _ => .popHeap
  | .dup => .dup
  | .movLitReg _ _ => .movLitReg
  | .movLitHeap _ _ => .movLitHeap
  | .movHeapReg _ _ => .movHeapReg
  | .movRegHeap _ _ => .movRegHeap
  | .movRegReg _ _ => .movRegReg
  | .movHeapHeap _ _ => .movHeapHeap
  | .mathAddReg _ _ => .mathAddReg
  | .mathSubReg _ _ => .mathSubReg
  | .mathMulReg _ _ => .mathMulReg
  | .mathDivReg _ _ => .mathDivReg
  | .mathAddStack => .mathAddStack
  | .mathSubStack => .mathSubStack
  | .mathMulStack => .mathMulStack
  | .mathDivStack => .mathDivStack
  | .bitNotReg _ => .bitNotReg
  | .bitAndReg _ _ => .bitAndReg
  | .bitOrReg _ _ => .bitOrReg
  | .bitXorReg _ _ => .bitXorReg
  | .bitNotStack => .bitNotStack
  | .bitAndStack => .bitAndStack
  | .bitOrStack => .bitOrStack
  | .bitXorStack => .bitXorStack
  | .cmpRegReg _ _ => .cmpRegReg
  | .cmpRegLit _ _ => .cmpRegLit
  | .cmpStackLit _ => .cmpStackLit
  | .jmp _ => .jmp
  | .jmpEq _ => .jmpEq
  | .jmpNe _ => .jmpNe
  | .jmpGt _ => .jmpGt
  | .jmpSm _ => .jmpSm
  | .jmpOv _ => .jmpOv
  | .syscall => .syscall

end Sys2Proof
end

