-- ==== Sys2Proof/WellFormed.lean ====
section
/-! DEFINITION. The checks on raw data. A register operand inside an `Instr` is valid by its type, and every 32-bit
literal is legal (30_encoding R103), so what can be wrong with an instruction is that the opcode map in force has no
byte for it; what can be wrong with an image is its length or a missing sentinel; with parameters, a limit below the
initial capacity. -/

namespace Sys2Proof

/-- R102: only 0-3 name a register. -/
def regByteValid (b : Byte) : Bool := b.toNat ≤ 3

/-- The opcode map gives some byte for this operation (R107; for the map of R108 every operation has one). -/
def OpcodeMap.offers (m : OpcodeMap) (op : Op) : Bool :=
  m.any fun e => e.2 == op && m.find e.1 == some op

/-- An instruction that an image for this opcode map can hold. -/
def Instr.wellFormed (m : OpcodeMap) (i : Instr) : Bool := m.offers i.op

/-- R8: each limit is at least the initial capacity. -/
def Params.wellFormed (p : Params) : Bool :=
  p.heapInitCap ≤ p.heapCapLimit && p.stackInitCap ≤ p.stackCapLimit

/-- R7, R43: an image has at most 2^32 - 1 bytes. -/
def imageLengthOk (length : Nat) : Bool := length ≤ 4294967295

/-- R60, R367: some window of four bytes is the sentinel. -/
def hasSentinel : List Byte → Bool
  | [] => false
  | b :: rest => (b :: rest).take 4 == [0x1D#8, 0x1D#8, 0x1D#8, 0x1D#8] || hasSentinel rest

/-- R367 (1): an image whose run the rules describe as more than a malformed header. -/
def imageWellFormed (img : List Byte) : Bool := imageLengthOk img.length && hasSentinel img

end Sys2Proof
end

