-- ==== Sys2Proof/Decode.lean ====
section
/-! DEFINITION. The formats and the opcode map of 30_encoding R104 and R108, the decoder (total on any bytes, its
rejections named) and, after it, the encoder. -/

namespace Sys2Proof

/-! ## Operands -/

/-- DecodeReg (R102): 0-3 name A-D, any other byte names no register. -/
def Reg.ofByte (b : Byte) : Option Reg :=
  if b = 0#8 then some .a
  else if b = 1#8 then some .b
  else if b = 2#8 then some .c
  else if b = 3#8 then some .d
  else none

/-- The operand byte of a register (R20, R102). -/
def Reg.toByte : Reg → Byte
  | .a => 0#8
  | .b => 1#8
  | .c => 2#8
  | .d => 3#8

/-- R103, R143: big-endian, the first byte fetched in bits 31-24. -/
def litOfBytes (b0 b1 b2 b3 : Byte) : Word :=
  (b0.setWidth 32 <<< 24) ||| (b1.setWidth 32 <<< 16) ||| (b2.setWidth 32 <<< 8) ||| b3.setWidth 32

/-- The four bytes of a word, most significant first (R103; R77 for a cell sent to the host). -/
def litBytes (w : Word) : List Byte :=
  [w.extractLsb' 24 8, w.extractLsb' 16 8, w.extractLsb' 8 8, w.extractLsb' 0 8]

/-! ## Formats and lengths -/

/-- The seven formats (R104). -/
inductive Format where
  | n | r | rr | l | rl | lr | ll
deriving DecidableEq, Repr

/-- Operand bytes after the opcode (R104). -/
def Format.operandLength : Format → Nat
  | .n => 0
  | .r => 1
  | .rr => 2
  | .l => 4
  | .rl => 5
  | .lr => 5
  | .ll => 8

/-- The format column of R108. -/
def Op.format : Op → Format
  | .exit => .n
  | .pushLit => .l
  | .pushReg => .r
  | .pushHeap => .l
  | .popReg => .r
  | .popHeap => .l
  | .dup => .n
  | .movLitReg => .rl
  | .movLitHeap => .ll
  | .movHeapReg => .rl
  | .movRegHeap => .lr
  | .movRegReg => .rr
  | .movHeapHeap => .ll
  | .mathAddReg => .rr
  | .mathSubReg => .rr
  | .mathMulReg => .rr
  | .mathDivReg => .rr
  | .mathAddStack => .n
  | .mathSubStack => .n
  | .mathMulStack => .n
  | .mathDivStack => .n
  | .bitNotReg => .r
  | .bitAndReg => .rr
  | .bitOrReg => .rr
  | .bitXorReg => .rr
  | .bitNotStack => .n
  | .bitAndStack => .n
  | .bitOrStack => .n
  | .bitXorStack => .n
  | .cmpRegReg => .rr
  | .cmpRegLit => .rl
  | .cmpStackLit => .l
  | .jmp => .l
  | .jmpEq => .l
  | .jmpNe => .l
  | .jmpGt => .l
  | .jmpSm => .l
  | .jmpOv => .l
  | .syscall => .n

/-- Operand bytes of an operation (R106: fixed by the opcode alone). -/
def Op.operandLength (op : Op) : Nat := op.format.operandLength

/-- Length of an instruction in bytes (R106, the length column of R108). -/
def Op.length (op : Op) : Nat := op.operandLength + 1

/-- The longest instruction, format LL (R104). -/
def maxLength : Nat := 9

/-! ## The opcode map -/

/-- The default `OPCODE_MAP` (R8, R108). -/
def defaultOpcodeMap : OpcodeMap := [
  (0x01#8, .exit), (0x10#8, .pushLit), (0x11#8, .pushReg), (0x12#8, .pushHeap),
  (0x13#8, .popReg), (0x14#8, .popHeap), (0x15#8, .dup), (0x20#8, .movLitReg),
  (0x21#8, .movLitHeap), (0x22#8, .movHeapReg), (0x23#8, .movRegHeap), (0x24#8, .movRegReg),
  (0x25#8, .movHeapHeap), (0x30#8, .mathAddReg), (0x31#8, .mathSubReg), (0x32#8, .mathMulReg),
  (0x33#8, .mathDivReg), (0x34#8, .mathAddStack), (0x35#8, .mathSubStack), (0x36#8, .mathMulStack),
  (0x37#8, .mathDivStack), (0x40#8, .bitNotReg), (0x41#8, .bitAndReg), (0x42#8, .bitOrReg),
  (0x43#8, .bitXorReg), (0x44#8, .bitNotStack), (0x45#8, .bitAndStack), (0x46#8, .bitOrStack),
  (0x47#8, .bitXorStack), (0x50#8, .cmpRegReg), (0x51#8, .cmpRegLit), (0x52#8, .cmpStackLit),
  (0x60#8, .jmp), (0x61#8, .jmpEq), (0x62#8, .jmpNe), (0x63#8, .jmpGt),
  (0x64#8, .jmpSm), (0x65#8, .jmpOv), (0x70#8, .syscall)]

/-! ## The decoder -/

/-- What bytes decode to. `outOfBounds` and `illegalRegister` are the two rejections, by the fault they raise
(R144, R102); `noOp` is an undefined opcode, which is no instruction of the table and no rejection (R110). -/
inductive Decoded where
  | instr (i : Instr) (rest : List Byte)
  | noOp (opcode : Byte) (rest : List Byte)
  | outOfBounds
  | illegalRegister
deriving DecidableEq, Repr

/-- A register operand (R101, R102): one byte, decoded as soon as it is fetched. -/
def withReg (bs : List Byte) (k : Reg → List Byte → Decoded) : Decoded :=
  match bs with
  | [] => .outOfBounds
  | b :: bs =>
    match Reg.ofByte b with
    | none => .illegalRegister
    | some r => k r bs

/-- A literal operand (R101, R103, R143): four bytes, the first missing one is the fault (R144). -/
def withLit (bs : List Byte) (k : Word → List Byte → Decoded) : Decoded :=
  match bs with
  | b0 :: b1 :: b2 :: b3 :: bs => k (litOfBytes b0 b1 b2 b3) bs
  | _ => .outOfBounds

/-- The operands of an operation in fetch order (R105, R108), so that the first fault reached is the one reported
(R326). -/
def decodeOperands (op : Op) (bs : List Byte) : Decoded :=
  match op with
  | .exit => .instr .exit bs
  | .pushLit => withLit bs fun l bs => .instr (.pushLit l) bs
  | .pushReg => withReg bs fun r bs => .instr (.pushReg r) bs
  | .pushHeap => withLit bs fun l bs => .instr (.pushHeap l) bs
  | .popReg => withReg bs fun r bs => .instr (.popReg r) bs
  | .popHeap => withLit bs fun l bs => .instr (.popHeap l) bs
  | .dup => .instr .dup bs
  | .movLitReg => withReg bs fun r bs => withLit bs fun l bs => .instr (.movLitReg r l) bs
  | .movLitHeap => withLit bs fun l bs => withLit bs fun m bs => .instr (.movLitHeap l m) bs
  | .movHeapReg => withReg bs fun r bs => withLit bs fun l bs => .instr (.movHeapReg r l) bs
  | .movRegHeap => withLit bs fun l bs => withReg bs fun r bs => .instr (.movRegHeap l r) bs
  | .movRegReg => withReg bs fun r bs => withReg bs fun s bs => .instr (.movRegReg r s) bs
  | .movHeapHeap => withLit bs fun l bs => withLit bs fun m bs => .instr (.movHeapHeap l m) bs
  | .mathAddReg => withReg bs fun r bs => withReg bs fun s bs => .instr (.mathAddReg r s) bs
  | .mathSubReg => withReg bs fun r bs => withReg bs fun s bs => .instr (.mathSubReg r s) bs
  | .mathMulReg => withReg bs fun r bs => withReg bs fun s bs => .instr (.mathMulReg r s) bs
  | .mathDivReg => withReg bs fun r bs => withReg bs fun s bs => .instr (.mathDivReg r s) bs
  | .mathAddStack => .instr .mathAddStack bs
  | .mathSubStack => .instr .mathSubStack bs
  | .mathMulStack => .instr .mathMulStack bs
  | .mathDivStack => .instr .mathDivStack bs
  | .bitNotReg => withReg bs fun r bs => .instr (.bitNotReg r) bs
  | .bitAndReg => withReg bs fun r bs => withReg bs fun s bs => .instr (.bitAndReg r s) bs
  | .bitOrReg => withReg bs fun r bs => withReg bs fun s bs => .instr (.bitOrReg r s) bs
  | .bitXorReg => withReg bs fun r bs => withReg bs fun s bs => .instr (.bitXorReg r s) bs
  | .bitNotStack => .instr .bitNotStack bs
  | .bitAndStack => .instr .bitAndStack bs
  | .bitOrStack => .instr .bitOrStack bs
  | .bitXorStack => .instr .bitXorStack bs
  | .cmpRegReg => withReg bs fun r bs => withReg bs fun s bs => .instr (.cmpRegReg r s) bs
  | .cmpRegLit => withReg bs fun r bs => withLit bs fun l bs => .instr (.cmpRegLit r l) bs
  | .cmpStackLit => withLit bs fun l bs => .instr (.cmpStackLit l) bs
  | .jmp => withLit bs fun l bs => .instr (.jmp l) bs
  | .jmpEq => withLit bs fun l bs => .instr (.jmpEq l) bs
  | .jmpNe => withLit bs fun l bs => .instr (.jmpNe l) bs
  | .jmpGt => withLit bs fun l bs => .instr (.jmpGt l) bs
  | .jmpSm => withLit bs fun l bs => .instr (.jmpSm l) bs
  | .jmpOv => withLit bs fun l bs => .instr (.jmpOv l) bs
  | .syscall => .instr .syscall bs

/-- The decoder (R106, R109, R110): a full match on the opcode byte, then that format's operands. -/
def decode (m : OpcodeMap) (bs : List Byte) : Decoded :=
  match bs with
  | [] => .outOfBounds
  | b :: bs =>
    match m.find b with
    | none => .noOp b bs
    | some op => decodeOperands op bs

/-- The instruction among the decoder's answers. -/
def Decoded.instr? : Decoded → Option Instr
  | .instr i _ => some i
  | _ => none

/-- `n` bytes of a number, the least significant first. -/
def bytesOfNat : Nat → Nat → List Byte
  | 0, _ => []
  | n + 1, w => BitVec.ofNat 8 w :: bytesOfNat n (w / 256)

/-- The bytes of a table word: its low `nbits` bits, the first byte in bits 7-0, zeros up to the longest
instruction. -/
def tableWordBytes (nbits w : Nat) : List Byte := bytesOfNat maxLength (w % 2 ^ nbits)

/-- What the decoder reads from a word numbered as spec/opcode_table.json numbers it. -/
def decodeTableWord (nbits w : Nat) : Option Instr :=
  (decode defaultOpcodeMap (tableWordBytes nbits w)).instr?

/-! ## The encoder -/

/-- The opcode column of R108. -/
def Op.opcode : Op → Byte
  | .exit => 0x01#8
  | .pushLit => 0x10#8
  | .pushReg => 0x11#8
  | .pushHeap => 0x12#8
  | .popReg => 0x13#8
  | .popHeap => 0x14#8
  | .dup => 0x15#8
  | .movLitReg => 0x20#8
  | .movLitHeap => 0x21#8
  | .movHeapReg => 0x22#8
  | .movRegHeap => 0x23#8
  | .movRegReg => 0x24#8
  | .movHeapHeap => 0x25#8
  | .mathAddReg => 0x30#8
  | .mathSubReg => 0x31#8
  | .mathMulReg => 0x32#8
  | .mathDivReg => 0x33#8
  | .mathAddStack => 0x34#8
  | .mathSubStack => 0x35#8
  | .mathMulStack => 0x36#8
  | .mathDivStack => 0x37#8
  | .bitNotReg => 0x40#8
  | .bitAndReg => 0x41#8
  | .bitOrReg => 0x42#8
  | .bitXorReg => 0x43#8
  | .bitNotStack => 0x44#8
  | .bitAndStack => 0x45#8
  | .bitOrStack => 0x46#8
  | .bitXorStack => 0x47#8
  | .cmpRegReg => 0x50#8
  | .cmpRegLit => 0x51#8
  | .cmpStackLit => 0x52#8
  | .jmp => 0x60#8
  | .jmpEq => 0x61#8
  | .jmpNe => 0x62#8
  | .jmpGt => 0x63#8
  | .jmpSm => 0x64#8
  | .jmpOv => 0x65#8
  | .syscall => 0x70#8

/-- The operand bytes of an instruction, in the layout of its format (R104, R105). -/
def operandBytes : Instr → List Byte
  | .exit => []
  | .pushLit l => litBytes l
  | .pushReg r => [r.toByte]
  | .pushHeap l => litBytes l
  | .popReg r => [r.toByte]
  | .popHeap l => litBytes l
  | .dup => []
  | .movLitReg r l => r.toByte :: litBytes l
  | .movLitHeap l m => litBytes l ++ litBytes m
  | .movHeapReg r l => r.toByte :: litBytes l
  | .movRegHeap l r => litBytes l ++ [r.toByte]
  | .movRegReg r s => [r.toByte, s.toByte]
  | .movHeapHeap l m => litBytes l ++ litBytes m
  | .mathAddReg r s => [r.toByte, s.toByte]
  | .mathSubReg r s => [r.toByte, s.toByte]
  | .mathMulReg r s => [r.toByte, s.toByte]
  | .mathDivReg r s => [r.toByte, s.toByte]
  | .mathAddStack => []
  | .mathSubStack => []
  | .mathMulStack => []
  | .mathDivStack => []
  | .bitNotReg r => [r.toByte]
  | .bitAndReg r s => [r.toByte, s.toByte]
  | .bitOrReg r s => [r.toByte, s.toByte]
  | .bitXorReg r s => [r.toByte, s.toByte]
  | .bitNotStack => []
  | .bitAndStack => []
  | .bitOrStack => []
  | .bitXorStack => []
  | .cmpRegReg r s => [r.toByte, s.toByte]
  | .cmpRegLit r l => r.toByte :: litBytes l
  | .cmpStackLit l => litBytes l
  | .jmp l => litBytes l
  | .jmpEq l => litBytes l
  | .jmpNe l => litBytes l
  | .jmpGt l => litBytes l
  | .jmpSm l => litBytes l
  | .jmpOv l => litBytes l
  | .syscall => []

/-- The bytes of an instruction under the map of R108. -/
def encode (i : Instr) : List Byte := i.op.opcode :: operandBytes i

/-- A byte that selects this operation under a given map. -/
def OpcodeMap.byteFor (m : OpcodeMap) (op : Op) : Option Byte :=
  (m.find? fun e => e.2 == op && OpcodeMap.find m e.1 == some op).map (·.1)

/-- The bytes of an instruction under a given map, where the map offers it. -/
def encodeIn (m : OpcodeMap) (i : Instr) : Option (List Byte) :=
  (m.byteFor i.op).map fun b => b :: operandBytes i

end Sys2Proof
end

