-- ==== Sys2Proof/Machine/State.lean ====
section
/-! DEFINITION. The machine's state (10_state), the reasons a step can stop, and the state after reset (R360). -/

namespace Sys2Proof.Machine

/-- Run status (R44). -/
inductive Phase where
  | reset
  | header
  | run
  | halted
deriving DecidableEq, Repr

/-- The fatal faults (R320). Taking one is a next state of the machine (R324), not an `Outcome.fault`. -/
inductive FaultCause where
  | malformedHeader
  | fetchOutOfBounds
  | illegalRegister
  | stackUnderflow
  | divideByZero
  | heapExhausted
  | stackExhausted
deriving DecidableEq, Repr

/-- What passes between the block and the host at the syscall port (R17, R19, R301). -/
inductive HostEvent where
  /-- `Write(bytes)`. -/
  | write (bytes : List Byte)
  /-- `Read()`, the request. -/
  | read
  /-- The host's reply to a `Read()`. -/
  | reply (bytes : List Byte)
  /-- `ClearScreen()`. -/
  | clearScreen
  /-- `PrintDecimal(v)`. -/
  | printDecimal (v : Word)
deriving DecidableEq, Repr

/-- Why an operation ends in `Outcome.fault`. No step does: the spec's own faults are states (R324). -/
inductive Fault where
  /-- Raised by the host operation `State.load` alone, when the block is running: the spec calls that load undefined
  (R368). Safe: the model stops where the spec gives no behaviour (notes/assumptions/11.md). -/
  | loadWhileRunning
deriving DecidableEq, Repr

/-- Why there is no meaning. -/
inductive Refusal where
  /-- Raised by `exec` for an instruction that has no meaning yet. Safe. No arm of this model raises it. -/
  | notModelled (mnemonic : String)
  /-- Raised by `State.load` and by the header parse for an image of more than 2^32 - 1 bytes, which the spec does
  not admit (R7, R43, decision D14). Safe (notes/assumptions/10.md). -/
  | imageTooLong
deriving DecidableEq, Repr

/-- The general registers (R20). -/
structure Regs where
  a : Word
  b : Word
  c : Word
  d : Word
deriving DecidableEq, Repr

/-- The flag set (R27), in the enumeration's order. -/
structure Flags where
  equal : Bool
  notEqual : Bool
  greater : Bool
  smaller : Bool
  overflow : Bool
  stop : Bool
deriving DecidableEq, Repr

/-- The heap's cells that do not read 0, as pairs of address and cell (R62: addresses count 32-bit cells). The
canonical form is `Memory.wf` (notes/assumptions/5.md). -/
abbrev Memory := List (Nat × Word)

/-- The whole machine. INVENTORY.md lists each field with its rule and reset value. -/
structure State where
  /-- A, B, C, D (R20). -/
  regs : Regs
  /-- Program counter, an offset into the instruction region (R23). -/
  pc : Word
  /-- The six flags (R27). -/
  flags : Flags
  /-- Base pointer, used by no instruction (R35). -/
  bp : Word
  /-- Header size (R36). -/
  hs : Word
  /-- The stack's values, top first: `S[len-1]` is the head (R37). -/
  stack : List Word
  /-- Stack capacity (R38). -/
  scap : Nat
  /-- Heap cells (R40). -/
  heap : Memory
  /-- Heap capacity (R40). -/
  hcap : Nat
  /-- Program image `IMG`; its length is `L` (R43). -/
  image : List Byte
  /-- Run status (R44). -/
  phase : Phase
  /-- `FAULT_CAUSE` (R45). -/
  faultCause : BitVec 8
  /-- `FAULT_PC` (R45). -/
  faultPc : Word
  /-- The open parameters (R8). -/
  params : Params
  /-- The model's own: what has passed at the syscall port, oldest first (R19, notes/assumptions/7.md). -/
  hostLog : List HostEvent
  /-- The model's own: the host's replies to the read requests to come (R301, notes/assumptions/6.md). -/
  inbox : List (List Byte)
  /-- The model's own: a read request is out and not answered (R304, notes/assumptions/6.md). -/
  awaitingReply : Bool
deriving DecidableEq, Repr

/-- The reset values of R360, for every choice of the open parameters and every loaded image. -/
def State.resetWith (p : Params) (image : List Byte) : State where
  regs := { a := 0#32, b := 0#32, c := 0#32, d := 0#32 }
  pc := 0#32
  flags := { equal := false, notEqual := false, greater := false, smaller := false, overflow := false, stop := false }
  bp := 0#32
  hs := 4#32
  stack := []
  scap := p.stackInitCap
  heap := []
  hcap := p.heapInitCap
  image := image
  phase := .reset
  faultCause := 0#8
  faultPc := 0#32
  params := p
  hostLog := []
  inbox := []
  awaitingReply := false

/-- The parameters `State.reset` starts with (notes/assumptions/1.md) and the opcode map of R108. -/
def resetParams : Params where
  heapInitCap := Sys2Proof.Config.heapInitCap
  heapCapLimit := Sys2Proof.Config.heapCapLimit
  stackInitCap := Sys2Proof.Config.stackInitCap
  stackCapLimit := Sys2Proof.Config.stackCapLimit
  opcodeMap := defaultOpcodeMap

/-- The machine right after reset (R360), no image loaded yet (notes/assumptions/3.md). -/
def State.reset : State := State.resetWith resetParams []

end Sys2Proof.Machine
end

