-- ==== Sys2Proof/Machine/Ops.lean ====
section
/-! DEFINITION. The named operations over registers, heap and stack (20_memory), taking a fault (60_exceptions R324,
R325) with the one way back from it (R328), and the frame every instruction's pseudocode runs in (40_control R145). -/

namespace Sys2Proof.Machine

/-! ## Registers -/

/-- `x[r]` (R10). -/
def State.reg (s : State) : Reg → Word
  | .a => s.regs.a
  | .b => s.regs.b
  | .c => s.regs.c
  | .d => s.regs.d

/-- `x[r] <- v` (R10); no register is hardwired (R20). -/
def State.setReg (s : State) (r : Reg) (v : Word) : State :=
  { s with
    regs :=
      match r with
      | .a => { s.regs with a := v }
      | .b => { s.regs with b := v }
      | .c => { s.regs with c := v }
      | .d => { s.regs with d := v } }

/-! ## Heap -/

/-- What the list holds at an address: 0 where nothing is listed (R63). -/
def Memory.read : Memory → Nat → Word
  | [], _ => 0#32
  | (k, v) :: m, a => if k = a then v else Memory.read m a

/-- Replaces one cell, keeping the addresses rising and listing no cell that reads 0. -/
def Memory.write : Memory → Nat → Word → Memory
  | [], a, v => if v = 0#32 then [] else [(a, v)]
  | (k, w) :: m, a, v =>
    if a < k then (if v = 0#32 then (k, w) :: m else (a, v) :: (k, w) :: m)
    else if a = k then (if v = 0#32 then m else (a, v) :: m)
    else (k, w) :: Memory.write m a v

/-- The canonical form from an address on: rising, below 2^32, no cell that an unlisted address reads as. -/
def Memory.wfFrom : Nat → Memory → Bool
  | _, [] => true
  | lo, (k, v) :: m => lo ≤ k && k < 4294967296 && v != 0#32 && Memory.wfFrom (k + 1) m

/-- The canonical form of the heap's list. -/
def Memory.wf (m : Memory) : Bool := Memory.wfFrom 0 m

/-- No cell is listed at or beyond a capacity. -/
def Memory.within (cap : Nat) (m : Memory) : Bool := m.all fun e => e.1 < cap

/-- `MemRead(a, 1)` (R64). -/
def State.memRead (s : State) (a : Word) : Word :=
  if s.hcap ≤ a.toNat then 0#32 else Memory.read s.heap a.toNat

/-- `MemWrite(a, 1, v)` (R65, R66): exact-fit growth; a zero is stored like any other value. -/
def State.memWrite (s : State) (a v : Word) : Except FaultCause State :=
  if s.hcap ≤ a.toNat then
    if s.params.heapCapLimit < a.toNat + 1 then .error .heapExhausted
    else .ok { s with hcap := a.toNat + 1, heap := Memory.write s.heap a.toNat v }
  else .ok { s with heap := Memory.write s.heap a.toNat v }

/-! ## Stack -/

/-- The capacity after a push onto a full stack (R70). -/
def grownStackCap (scap : Nat) : Nat := max 1 (2 * scap)

/-- `Push(v)` (R70, R71). -/
def State.push (s : State) (v : Word) : Except FaultCause State :=
  if s.stack.length = s.scap then
    if s.params.stackCapLimit < grownStackCap s.scap then .error .stackExhausted
    else .ok { s with scap := grownStackCap s.scap, stack := v :: s.stack }
  else .ok { s with stack := v :: s.stack }

/-- `Pop()` (R72). -/
def State.pop (s : State) : Except FaultCause (Word × State) :=
  match s.stack with
  | [] => .error .stackUnderflow
  | v :: rest => .ok (v, { s with stack := rest })

/-- `Peek()` (R73): the true top, `S[len-1]`. -/
def State.peek (s : State) : Except FaultCause Word :=
  match s.stack with
  | [] => .error .stackUnderflow
  | v :: _ => .ok v

/-- `clear()` (R74): the length becomes 0 and the capacity stays. No instruction performs it. -/
def State.clearStack (s : State) : State := { s with stack := [] }

/-! ## Taking a fault -/

/-- The code recorded in `FAULT_CAUSE` (R320). -/
def FaultCause.code : FaultCause → BitVec 8
  | .malformedHeader => 1#8
  | .fetchOutOfBounds => 2#8
  | .illegalRegister => 3#8
  | .stackUnderflow => 4#8
  | .divideByZero => 5#8
  | .heapExhausted => 6#8
  | .stackExhausted => 7#8

/-- Fault entry (R324): applied to the state BEFORE the instruction, since everything the instruction wrote is
discarded (R325). There is no handler, vector or saved state. -/
def State.enterFault (s : State) (c : FaultCause) (pc0 : Word) : State :=
  { s with faultCause := c.code, faultPc := pc0, phase := .halted }

/-- Reset of the block (R360), the only way out of a fault or out of `Halted` (R328, R368): the image and the
parameters stay. DESIGN CHOICE (notes/assumptions/21.md): it acts in every phase, a running block included, which the
spec leaves open. The model's own fields start a new run empty (notes/assumptions/18.md). -/
def State.resetBlock (s : State) : State := State.resetWith s.params s.image

/-! ## The frame of an instruction -/

/-- `Execute` and the loop's `pc + 1` (R142, R145), for an instruction whose operand bytes have been fetched: the
body sees the pc advanced once per operand byte; a raise discards the body's writes and takes the fault at the
opcode's address. -/
def State.complete (s : State) (operands : Nat) (body : State → Except FaultCause State) :
    Host.Outcome State Fault Refusal :=
  match body { s with pc := s.pc + BitVec.ofNat 32 operands } with
  | .ok t => .next { t with pc := t.pc + 1#32 }
  | .error c => .next (s.enterFault c s.pc)

end Sys2Proof.Machine
end

