-- ==== Sys2Proof/Machine/Flags.lean ====
section
/-! DEFINITION. Every flag computation and the ALU (10_state R27-R34, 43_arithmetic R210-R212, 44_bitwise R240,
45_compare R260). -/

namespace Sys2Proof.Machine

/-- The largest 32-bit value, `MAX` (R210). -/
abbrev maxWord : Nat := 4294967295

/-- R210, add: the exact sum lies above `MAX`. -/
def addOverflows (a b : Word) : Bool := decide (maxWord < a.toNat + b.toNat)

/-- R210, sub: the exact difference lies below 0. -/
def subOverflows (a b : Word) : Bool := decide (a.toNat < b.toNat)

/-- R210, mul: the exact product lies above `MAX`. -/
def mulOverflows (a b : Word) : Bool := decide (maxWord < a.toNat * b.toNat)

/-- What the ALU hands back: a value, and Overflow where the operation owns it (R29); `none` keeps the flag. -/
structure AluOut where
  value : Word
  overflow : Option Bool
deriving DecidableEq, Repr

/-- Add (R210). -/
def aluAdd (a b : Word) : Except FaultCause AluOut := .ok { value := a + b, overflow := some (addOverflows a b) }

/-- Subtract (R210). -/
def aluSub (a b : Word) : Except FaultCause AluOut := .ok { value := a - b, overflow := some (subOverflows a b) }

/-- Multiply (R210). -/
def aluMul (a b : Word) : Except FaultCause AluOut := .ok { value := a * b, overflow := some (mulOverflows a b) }

/-- Divide (R212): unsigned, toward zero, no flag; a zero divisor raises. -/
def aluDiv (a b : Word) : Except FaultCause AluOut :=
  if b = 0#32 then .error .divideByZero else .ok { value := a / b, overflow := none }

/-- And, or, exclusive or (R240): no flag. -/
def aluAnd (a b : Word) : Except FaultCause AluOut := .ok { value := a &&& b, overflow := none }

def aluOr (a b : Word) : Except FaultCause AluOut := .ok { value := a ||| b, overflow := none }

def aluXor (a b : Word) : Except FaultCause AluOut := .ok { value := a ^^^ b, overflow := none }

/-- Complement (R240): no flag. -/
def aluNot (a : Word) : Word := ~~~a

/-- Writes Overflow where the operation owns it (R29, R32). -/
def State.setOverflow (s : State) (o : Option Bool) : State :=
  match o with
  | none => s
  | some v => { s with flags := { s.flags with overflow := v } }

/-- `Compare(a, b)` (R260): the four ordering flags at once, unsigned; Overflow and Stop stay. -/
def Flags.compare (f : Flags) (a b : Word) : Flags :=
  { f with
    equal := decide (a = b)
    notEqual := decide (a ≠ b)
    greater := decide (b.toNat < a.toNat)
    smaller := decide (a.toNat < b.toNat) }

/-- A comparison's effect on the machine (R260). -/
def State.compare (s : State) (a b : Word) : State := { s with flags := s.flags.compare a b }

/-- `exit` sets Stop (R30, R146). -/
def State.setStop (s : State) : State := { s with flags := { s.flags with stop := true } }

/-- The flag word of the status port (R34): bit 0 Equal to bit 5 Stop. -/
def Flags.word (f : Flags) : BitVec 6 :=
  BitVec.ofBool f.stop ++ BitVec.ofBool f.overflow ++ BitVec.ofBool f.smaller ++ BitVec.ofBool f.greater ++
    BitVec.ofBool f.notEqual ++ BitVec.ofBool f.equal

end Sys2Proof.Machine
end

