-- ==== Sys2Proof/Machine/Operands.lean ====
section
/-! DEFINITION. The operand forms that several instructions share (43_arithmetic R213, 44_bitwise R241, 46_jump
R280, 47_syscall R300): register pair, stack pair, jump target, runs of heap cells. -/

namespace Sys2Proof.Machine

/-- Register form (R213, R241): both operands are read before the first register is written (R11, R211). -/
def State.regForm (s : State) (f : Word → Word → Except FaultCause AluOut) (ra rb : Reg) :
    Except FaultCause State := do
  let out ← f (s.reg ra) (s.reg rb)
  return (s.setOverflow out.overflow).setReg ra out.value

/-- Stack form (R213, R241): `b` is popped first, then `a`, and the result is pushed. -/
def State.stackForm (s : State) (f : Word → Word → Except FaultCause AluOut) : Except FaultCause State := do
  let (b, s) ← s.pop
  let (a, s) ← s.pop
  let out ← f a b
  (s.setOverflow out.overflow).push out.value

/-- `Jump(cond)` (R280): the loop's `+ 1` lands a taken jump on its target. -/
def State.jumpIf (s : State) (cond : Bool) (t : Word) : State :=
  if cond then { s with pc := t - 1#32 } else s

/-- `n` heap cells from an address upward, addresses wrapping at 2^32, each cell most significant byte first
(R302, R77). -/
def State.cellBytes (s : State) : Nat → Word → List Byte
  | 0, _ => []
  | n + 1, a => litBytes (s.memRead a) ++ State.cellBytes s n (a + 1#32)

/-- One byte per cell from an address upward, zero-extended, addresses wrapping at 2^32 (R303). -/
def State.storeBytes : State → Word → List Byte → Except FaultCause State
  | s, _, [] => .ok s
  | s, a, b :: bs => do
    let s ← s.memWrite a (b.setWidth 32)
    State.storeBytes s (a + 1#32) bs

/-- A request that has no reply (R301). -/
def State.send (s : State) (e : HostEvent) : State := { s with hostLog := s.hostLog ++ [e] }

/-- The read request, sent once however long the reply takes (R301, R304). -/
def State.sendRead (s : State) : State :=
  if s.awaitingReply then s else { s with hostLog := s.hostLog ++ [.read], awaitingReply := true }

/-- The host's reply reaches the block (R304). -/
def State.receive (s : State) (bytes : List Byte) (later : List (List Byte)) : State :=
  { s with hostLog := s.hostLog ++ [.reply bytes], inbox := later, awaitingReply := false }

end Sys2Proof.Machine
end

