-- ==== Sys2Proof/Machine/Arithmetic.lean ====
section
/-! DEFINITION. Arithmetic on a register pair or on the top two stack values (43_arithmetic R214-R221). -/

namespace Sys2Proof.Machine

/-- R214. -/
def execMathAddReg (ra rb : Reg) (s : State) : Host.Outcome State Fault Refusal :=
  s.complete Op.mathAddReg.operandLength fun s => s.regForm aluAdd ra rb

/-- R215. -/
def execMathSubReg (ra rb : Reg) (s : State) : Host.Outcome State Fault Refusal :=
  s.complete Op.mathSubReg.operandLength fun s => s.regForm aluSub ra rb

/-- R216. -/
def execMathMulReg (ra rb : Reg) (s : State) : Host.Outcome State Fault Refusal :=
  s.complete Op.mathMulReg.operandLength fun s => s.regForm aluMul ra rb

/-- R217. -/
def execMathDivReg (ra rb : Reg) (s : State) : Host.Outcome State Fault Refusal :=
  s.complete Op.mathDivReg.operandLength fun s => s.regForm aluDiv ra rb

/-- R218. -/
def execMathAddStack (s : State) : Host.Outcome State Fault Refusal :=
  s.complete Op.mathAddStack.operandLength fun s => s.stackForm aluAdd

/-- R219. -/
def execMathSubStack (s : State) : Host.Outcome State Fault Refusal :=
  s.complete Op.mathSubStack.operandLength fun s => s.stackForm aluSub

/-- R220. -/
def execMathMulStack (s : State) : Host.Outcome State Fault Refusal :=
  s.complete Op.mathMulStack.operandLength fun s => s.stackForm aluMul

/-- R221: underflow is checked before the divisor. -/
def execMathDivStack (s : State) : Host.Outcome State Fault Refusal :=
  s.complete Op.mathDivStack.operandLength fun s => s.stackForm aluDiv

end Sys2Proof.Machine
end

