-- ==== Sys2Proof/Machine/Bitwise.lean ====
section
/-! DEFINITION. Bitwise operations on registers or on the stack (44_bitwise R242-R249). No flag is written. -/

namespace Sys2Proof.Machine

/-- R242. -/
def execBitNotReg (r : Reg) (s : State) : Host.Outcome State Fault Refusal :=
  s.complete Op.bitNotReg.operandLength fun s => .ok (s.setReg r (aluNot (s.reg r)))

/-- R243. -/
def execBitAndReg (ra rb : Reg) (s : State) : Host.Outcome State Fault Refusal :=
  s.complete Op.bitAndReg.operandLength fun s => s.regForm aluAnd ra rb

/-- R244. -/
def execBitOrReg (ra rb : Reg) (s : State) : Host.Outcome State Fault Refusal :=
  s.complete Op.bitOrReg.operandLength fun s => s.regForm aluOr ra rb

/-- R245. -/
def execBitXorReg (ra rb : Reg) (s : State) : Host.Outcome State Fault Refusal :=
  s.complete Op.bitXorReg.operandLength fun s => s.regForm aluXor ra rb

/-- R246. -/
def execBitNotStack (s : State) : Host.Outcome State Fault Refusal :=
  s.complete Op.bitNotStack.operandLength fun s => do
    let (a, s) ← s.pop
    s.push (aluNot a)

/-- R247. -/
def execBitAndStack (s : State) : Host.Outcome State Fault Refusal :=
  s.complete Op.bitAndStack.operandLength fun s => s.stackForm aluAnd

/-- R248. -/
def execBitOrStack (s : State) : Host.Outcome State Fault Refusal :=
  s.complete Op.bitOrStack.operandLength fun s => s.stackForm aluOr

/-- R249. -/
def execBitXorStack (s : State) : Host.Outcome State Fault Refusal :=
  s.complete Op.bitXorStack.operandLength fun s => s.stackForm aluXor

end Sys2Proof.Machine
end

