-- ==== Sys2Proof/Machine/Compare.lean ====
section
/-! DEFINITION. Comparisons (45_compare R261-R263): the four ordering flags, no operand is written or consumed. -/

namespace Sys2Proof.Machine

/-- R261. -/
def execCmpRegReg (ra rb : Reg) (s : State) : Host.Outcome State Fault Refusal :=
  s.complete Op.cmpRegReg.operandLength fun s => .ok (s.compare (s.reg ra) (s.reg rb))

/-- R262. -/
def execCmpRegLit (ra : Reg) (l : Word) (s : State) : Host.Outcome State Fault Refusal :=
  s.complete Op.cmpRegLit.operandLength fun s => .ok (s.compare (s.reg ra) l)

/-- R263: the top is read with `Peek` and stays. -/
def execCmpStackLit (l : Word) (s : State) : Host.Outcome State Fault Refusal :=
  s.complete Op.cmpStackLit.operandLength fun s => do
    let a ← s.peek
    return s.compare a l

end Sys2Proof.Machine
end

