-- ==== Sys2Proof/Machine/Control.lean ====
section
/-! DEFINITION. `exit` (40_control R146). -/

namespace Sys2Proof.Machine

/-- R146. -/
def execExit (s : State) : Host.Outcome State Fault Refusal :=
  s.complete Op.exit.operandLength fun s => .ok s.setStop

end Sys2Proof.Machine
end

