-- ==== Sys2Proof/Machine/Jump.lean ====
section
/-! DEFINITION. Jumps (46_jump R281-R286): absolute target, no flag or register written. -/

namespace Sys2Proof.Machine

/-- R281. -/
def execJmp (t : Word) (s : State) : Host.Outcome State Fault Refusal :=
  s.complete Op.jmp.operandLength fun s => .ok (s.jumpIf true t)

/-- R282. -/
def execJmpEq (t : Word) (s : State) : Host.Outcome State Fault Refusal :=
  s.complete Op.jmpEq.operandLength fun s => .ok (s.jumpIf s.flags.equal t)

/-- R283. -/
def execJmpNe (t : Word) (s : State) : Host.Outcome State Fault Refusal :=
  s.complete Op.jmpNe.operandLength fun s => .ok (s.jumpIf s.flags.notEqual t)

/-- R284. -/
def execJmpGt (t : Word) (s : State) : Host.Outcome State Fault Refusal :=
  s.complete Op.jmpGt.operandLength fun s => .ok (s.jumpIf s.flags.greater t)

/-- R285. -/
def execJmpSm (t : Word) (s : State) : Host.Outcome State Fault Refusal :=
  s.complete Op.jmpSm.operandLength fun s => .ok (s.jumpIf s.flags.smaller t)

/-- R286. -/
def execJmpOv (t : Word) (s : State) : Host.Outcome State Fault Refusal :=
  s.complete Op.jmpOv.operandLength fun s => .ok (s.jumpIf s.flags.overflow t)

end Sys2Proof.Machine
end

