-- ==== Sys2Proof/Machine/Move.lean ====
section
/-! DEFINITION. Data moves, destination first (42_move R190-R195). No flag is written. -/

namespace Sys2Proof.Machine

/-- R190. -/
def execMovLitReg (rd : Reg) (l : Word) (s : State) : Host.Outcome State Fault Refusal :=
  s.complete Op.movLitReg.operandLength fun s => .ok (s.setReg rd l)

/-- R191. -/
def execMovLitHeap (ad l : Word) (s : State) : Host.Outcome State Fault Refusal :=
  s.complete Op.movLitHeap.operandLength fun s => s.memWrite ad l

/-- R192. -/
def execMovHeapReg (rd : Reg) (as : Word) (s : State) : Host.Outcome State Fault Refusal :=
  s.complete Op.movHeapReg.operandLength fun s => .ok (s.setReg rd (s.memRead as))

/-- R193. -/
def execMovRegHeap (ad : Word) (rs : Reg) (s : State) : Host.Outcome State Fault Refusal :=
  s.complete Op.movRegHeap.operandLength fun s => s.memWrite ad (s.reg rs)

/-- R194. -/
def execMovRegReg (rd rs : Reg) (s : State) : Host.Outcome State Fault Refusal :=
  s.complete Op.movRegReg.operandLength fun s => .ok (s.setReg rd (s.reg rs))

/-- R195. -/
def execMovHeapHeap (ad as : Word) (s : State) : Host.Outcome State Fault Refusal :=
  s.complete Op.movHeapHeap.operandLength fun s => s.memWrite ad (s.memRead as)

end Sys2Proof.Machine
end

