-- ==== Sys2Proof/Machine/Stack.lean ====
section
/-! DEFINITION. Push, pop and duplicate (41_stack R170-R175). No flag is written. -/

namespace Sys2Proof.Machine

/-- R170. -/
def execPushLit (l : Word) (s : State) : Host.Outcome State Fault Refusal :=
  s.complete Op.pushLit.operandLength fun s => s.push l

/-- R171. -/
def execPushReg (r : Reg) (s : State) : Host.Outcome State Fault Refusal :=
  s.complete Op.pushReg.operandLength fun s => s.push (s.reg r)

/-- R172: the heap read never faults. -/
def execPushHeap (l : Word) (s : State) : Host.Outcome State Fault Refusal :=
  s.complete Op.pushHeap.operandLength fun s => s.push (s.memRead l)

/-- R173. -/
def execPopReg (r : Reg) (s : State) : Host.Outcome State Fault Refusal :=
  s.complete Op.popReg.operandLength fun s => do
    let (v, s) ← s.pop
    return s.setReg r v

/-- R174: underflow is checked before the heap write. -/
def execPopHeap (l : Word) (s : State) : Host.Outcome State Fault Refusal :=
  s.complete Op.popHeap.operandLength fun s => do
    let (v, s) ← s.pop
    s.memWrite l v

/-- R175. -/
def execDup (s : State) : Host.Outcome State Fault Refusal :=
  s.complete Op.dup.operandLength fun s => do
    let v ← s.peek
    s.push v

end Sys2Proof.Machine
end

