-- ==== Sys2Proof/Machine/Syscall.lean ====
section
/-! DEFINITION. `syscall` (47_syscall R300-R308): A selects the function, B holds an address or a value, C a length;
no register and no flag is written. -/

namespace Sys2Proof.Machine

/-- Function 0 (R302). -/
def State.syscallWrite (s : State) : Host.Outcome State Fault Refusal :=
  s.complete Op.syscall.operandLength fun s => .ok (s.send (.write (s.cellBytes (s.reg .c).toNat (s.reg .b))))

/-- Function 1 (R303, R304, R308). While the host has no reply the unit waits: the request is out and the same
instruction stays at the pc (notes/assumptions/6.md). With a reply, C is not consulted and no count is returned; a
fault in the cell writes discards them but neither the request nor the reply. -/
def State.syscallRead (s : State) : Host.Outcome State Fault Refusal :=
  match s.inbox with
  | [] => .next s.sendRead
  | bytes :: later =>
    (s.sendRead.receive bytes later).complete Op.syscall.operandLength fun s => s.storeBytes (s.reg .b) bytes

/-- Function 2 (R305). -/
def State.syscallClear (s : State) : Host.Outcome State Fault Refusal :=
  s.complete Op.syscall.operandLength fun s => .ok (s.send .clearScreen)

/-- Function 3 (R306). -/
def State.syscallPrint (s : State) : Host.Outcome State Fault Refusal :=
  s.complete Op.syscall.operandLength fun s => .ok (s.send (.printDecimal (s.reg .b)))

/-- R300, R307: any other function code is a no-op. -/
def execSyscall (s : State) : Host.Outcome State Fault Refusal :=
  if s.reg .a = 0#32 then s.syscallWrite
  else if s.reg .a = 1#32 then s.syscallRead
  else if s.reg .a = 2#32 then s.syscallClear
  else if s.reg .a = 3#32 then s.syscallPrint
  else s.complete Op.syscall.operandLength fun s => .ok s

end Sys2Proof.Machine
end

