-- ==== Sys2Proof/Machine/Dispatch.lean ====
section
/-! DEFINITION. One arm per instruction, each one call of its meaning. -/

namespace Sys2Proof.Machine

def exec (i : Instr) (s : State) : Host.Outcome State Fault Refusal :=
  match i with
  | .exit => Sys2Proof.Machine.execExit s
  | .pushLit l => Sys2Proof.Machine.execPushLit l s
  | .pushReg r => Sys2Proof.Machine.execPushReg r s
  | .pushHeap l => Sys2Proof.Machine.execPushHeap l s
  | .popReg r => Sys2Proof.Machine.execPopReg r s
  | .popHeap l => Sys2Proof.Machine.execPopHeap l s
  | .dup => Sys2Proof.Machine.execDup s
  | .movLitReg rd l => Sys2Proof.Machine.execMovLitReg rd l s
  | .movLitHeap ad l => Sys2Proof.Machine.execMovLitHeap ad l s
  | .movHeapReg rd as => Sys2Proof.Machine.execMovHeapReg rd as s
  | .movRegHeap ad rs => Sys2Proof.Machine.execMovRegHeap ad rs s
  | .movRegReg rd rs => Sys2Proof.Machine.execMovRegReg rd rs s
  | .movHeapHeap ad as => Sys2Proof.Machine.execMovHeapHeap ad as s
  | .mathAddReg ra rb => Sys2Proof.Machine.execMathAddReg ra rb s
  | .mathSubReg ra rb => Sys2Proof.Machine.execMathSubReg ra rb s
  | .mathMulReg ra rb => Sys2Proof.Machine.execMathMulReg ra rb s
  | .mathDivReg ra rb => Sys2Proof.Machine.execMathDivReg ra rb s
  | .mathAddStack => Sys2Proof.Machine.execMathAddStack s
  | .mathSubStack => Sys2Proof.Machine.execMathSubStack s
  | .mathMulStack => Sys2Proof.Machine.execMathMulStack s
  | .mathDivStack => Sys2Proof.Machine.execMathDivStack s
  | .bitNotReg r => Sys2Proof.Machine.execBitNotReg r s
  | .bitAndReg ra rb => Sys2Proof.Machine.execBitAndReg ra rb s
  | .bitOrReg ra rb => Sys2Proof.Machine.execBitOrReg ra rb s
  | .bitXorReg ra rb => Sys2Proof.Machine.execBitXorReg ra rb s
  | .bitNotStack => Sys2Proof.Machine.execBitNotStack s
  | .bitAndStack => Sys2Proof.Machine.execBitAndStack s
  | .bitOrStack => Sys2Proof.Machine.execBitOrStack s
  | .bitXorStack => Sys2Proof.Machine.execBitXorStack s
  | .cmpRegReg ra rb => Sys2Proof.Machine.execCmpRegReg ra rb s
  | .cmpRegLit ra l => Sys2Proof.Machine.execCmpRegLit ra l s
  | .cmpStackLit l => Sys2Proof.Machine.execCmpStackLit l s
  | .jmp t => Sys2Proof.Machine.execJmp t s
  | .jmpEq t => Sys2Proof.Machine.execJmpEq t s
  | .jmpNe t => Sys2Proof.Machine.execJmpNe t s
  | .jmpGt t => Sys2Proof.Machine.execJmpGt t s
  | .jmpSm t => Sys2Proof.Machine.execJmpSm t s
  | .jmpOv t => Sys2Proof.Machine.execJmpOv t s
  | .syscall => Sys2Proof.Machine.execSyscall s

end Sys2Proof.Machine
end

