-- ==== Sys2Proof/Machine/Fetch.lean ====
section
/-! DEFINITION. Instruction fetch (40_control R141-R145): the bounds-checked image byte, the window of bytes the
decoder reads, the byte-by-byte fetch it stands for, and a word stored where the next fetch reads. -/

namespace Sys2Proof.Machine

/-- `ImgFetch(p)` (R141): the sum is a natural number and does not wrap; past the image there is no byte. -/
def State.imgFetch (s : State) (p : Word) : Option Byte := s.image[p.toNat + s.hs.toNat]?

/-- Up to `n` bytes from an instruction address, the address advancing modulo 2^32 (R142), ending before the first
byte that lies past the image (R144). -/
def State.fetchBytes (s : State) : Nat → Word → List Byte
  | 0, _ => []
  | n + 1, p =>
    match s.imgFetch p with
    | none => []
    | some b => b :: State.fetchBytes s n (p + 1#32)

/-- What stands at the pc, decoded with the opcode map in force. Nine bytes hold every instruction, and a byte the
instruction does not have is never missed (R106, notes/assumptions/9.md). -/
def State.fetchDecode (s : State) : Decoded := decode s.params.opcodeMap (s.fetchBytes maxLength s.pc)

/-! ## The fetch as the spec writes it, one byte at a time

The step decodes a window of bytes; below is the sequential fetch of R142 and R143, with the pc it leaves, for a
statement that the two agree. -/

/-- `FetchByte()` (R142): the pc advances, then the byte there is read. -/
def fetchByte (s : State) (p : Word) : Except FaultCause (Byte × Word) :=
  match s.imgFetch (p + 1#32) with
  | none => .error .fetchOutOfBounds
  | some b => .ok (b, p + 1#32)

/-- `DecodeReg(FetchByte())` (R102, R142). -/
def fetchReg (s : State) (p : Word) : Except FaultCause (Reg × Word) :=
  (fetchByte s p).bind fun (b, p) =>
    match Reg.ofByte b with
    | none => .error .illegalRegister
    | some r => .ok (r, p)

/-- `FetchLit()` (R143). -/
def fetchLit (s : State) (p : Word) : Except FaultCause (Word × Word) :=
  (fetchByte s p).bind fun (b0, p) =>
  (fetchByte s p).bind fun (b1, p) =>
  (fetchByte s p).bind fun (b2, p) =>
  (fetchByte s p).bind fun (b3, p) => .ok (litOfBytes b0 b1 b2 b3, p)

/-- The operand fetches of an operation, in the order its pseudocode makes them (R105, R108). -/
def fetchOperands (s : State) (op : Op) (p : Word) : Except FaultCause (Instr × Word) :=
  match op with
  | .exit => .ok (.exit, p)
  | .pushLit => (fetchLit s p).bind fun (l, p) => .ok (.pushLit l, p)
  | .pushReg => (fetchReg s p).bind fun (r, p) => .ok (.pushReg r, p)
  | .pushHeap => (fetchLit s p).bind fun (l, p) => .ok (.pushHeap l, p)
  | .popReg => (fetchReg s p).bind fun (r, p) => .ok (.popReg r, p)
  | .popHeap => (fetchLit s p).bind fun (l, p) => .ok (.popHeap l, p)
  | .dup => .ok (.dup, p)
  | .movLitReg => (fetchReg s p).bind fun (r, p) => (fetchLit s p).bind fun (l, p) => .ok (.movLitReg r l, p)
  | .movLitHeap => (fetchLit s p).bind fun (l, p) => (fetchLit s p).bind fun (m, p) => .ok (.movLitHeap l m, p)
  | .movHeapReg => (fetchReg s p).bind fun (r, p) => (fetchLit s p).bind fun (l, p) => .ok (.movHeapReg r l, p)
  | .movRegHeap => (fetchLit s p).bind fun (l, p) => (fetchReg s p).bind fun (r, p) => .ok (.movRegHeap l r, p)
  | .movRegReg => (fetchReg s p).bind fun (r, p) => (fetchReg s p).bind fun (q, p) => .ok (.movRegReg r q, p)
  | .movHeapHeap => (fetchLit s p).bind fun (l, p) => (fetchLit s p).bind fun (m, p) => .ok (.movHeapHeap l m, p)
  | .mathAddReg => (fetchReg s p).bind fun (r, p) => (fetchReg s p).bind fun (q, p) => .ok (.mathAddReg r q, p)
  | .mathSubReg => (fetchReg s p).bind fun (r, p) => (fetchReg s p).bind fun (q, p) => .ok (.mathSubReg r q, p)
  | .mathMulReg => (fetchReg s p).bind fun (r, p) => (fetchReg s p).bind fun (q, p) => .ok (.mathMulReg r q, p)
  | .mathDivReg => (fetchReg s p).bind fun (r, p) => (fetchReg s p).bind fun (q, p) => .ok (.mathDivReg r q, p)
  | .mathAddStack => .ok (.mathAddStack, p)
  | .mathSubStack => .ok (.mathSubStack, p)
  | .mathMulStack => .ok (.mathMulStack, p)
  | .mathDivStack => .ok (.mathDivStack, p)
  | .bitNotReg => (fetchReg s p).bind fun (r, p) => .ok (.bitNotReg r, p)
  | .bitAndReg => (fetchReg s p).bind fun (r, p) => (fetchReg s p).bind fun (q, p) => .ok (.bitAndReg r q, p)
  | .bitOrReg => (fetchReg s p).bind fun (r, p) => (fetchReg s p).bind fun (q, p) => .ok (.bitOrReg r q, p)
  | .bitXorReg => (fetchReg s p).bind fun (r, p) => (fetchReg s p).bind fun (q, p) => .ok (.bitXorReg r q, p)
  | .bitNotStack => .ok (.bitNotStack, p)
  | .bitAndStack => .ok (.bitAndStack, p)
  | .bitOrStack => .ok (.bitOrStack, p)
  | .bitXorStack => .ok (.bitXorStack, p)
  | .cmpRegReg => (fetchReg s p).bind fun (r, p) => (fetchReg s p).bind fun (q, p) => .ok (.cmpRegReg r q, p)
  | .cmpRegLit => (fetchReg s p).bind fun (r, p) => (fetchLit s p).bind fun (l, p) => .ok (.cmpRegLit r l, p)
  | .cmpStackLit => (fetchLit s p).bind fun (l, p) => .ok (.cmpStackLit l, p)
  | .jmp => (fetchLit s p).bind fun (l, p) => .ok (.jmp l, p)
  | .jmpEq => (fetchLit s p).bind fun (l, p) => .ok (.jmpEq l, p)
  | .jmpNe => (fetchLit s p).bind fun (l, p) => .ok (.jmpNe l, p)
  | .jmpGt => (fetchLit s p).bind fun (l, p) => .ok (.jmpGt l, p)
  | .jmpSm => (fetchLit s p).bind fun (l, p) => .ok (.jmpSm l, p)
  | .jmpOv => (fetchLit s p).bind fun (l, p) => .ok (.jmpOv l, p)
  | .syscall => .ok (.syscall, p)

/-- What the fetch part of `Step` (R145) comes to: an instruction and the pc its body starts with, an undefined
opcode, or a fault. -/
inductive Fetched where
  | instr (i : Instr) (pc : Word)
  | noOp
  | fault (c : FaultCause)
deriving DecidableEq, Repr

/-- The fetch part of `Step`, as R145 writes it. -/
def State.fetchInOrder (s : State) : Fetched :=
  match s.imgFetch s.pc with
  | none => .fault .fetchOutOfBounds
  | some b =>
    match s.params.opcodeMap.find b with
    | none => .noOp
    | some op =>
      match fetchOperands s op s.pc with
      | .error c => .fault c
      | .ok (i, p) => .instr i p

/-- The decoder's answer in the same terms, for an opcode at `pc0`. -/
def fetchedAt (pc0 : Word) (d : Decoded) : Fetched :=
  match d with
  | .instr i _ => .instr i (pc0 + BitVec.ofNat 32 i.op.operandLength)
  | .noOp _ _ => .noOp
  | .outOfBounds => .fault .fetchOutOfBounds
  | .illegalRegister => .fault .illegalRegister

/-! ## A word at the fetch address -/

/-- One byte of an image replaced; a shorter image is filled up with sentinel bytes `0x1D`. -/
def setImageByte : List Byte → Nat → Byte → List Byte
  | [], 0, v => [v]
  | _ :: img, 0, v => v :: img
  | [], n + 1, v => 0x1D#8 :: setImageByte [] n v
  | b :: img, n + 1, v => b :: setImageByte img n v

/-- Bytes stored at consecutive instruction addresses, which wrap as the fetch does. -/
def State.placeBytes (s : State) (p : Word) : List Byte → State
  | [] => s
  | b :: bs => ({ s with image := setImageByte s.image (p.toNat + s.hs.toNat) b } : State).placeBytes (p + 1#32) bs

end Sys2Proof.Machine
end

