-- ==== Sys2Proof/Machine/Boot.lean ====
section
/-! DEFINITION. Start and header parse (70_reset_and_hazards R362-R366). -/

namespace Sys2Proof.Machine

/-- The host starts the block (R362); in any other phase a start does nothing. -/
def State.start (s : State) : State :=
  match s.phase with
  | .reset => { s with phase := .header }
  | .header => s
  | .run => s
  | .halted => s

/-- The scan of R363 from image offset `i`, whose bytes from there on are the list: a window at every offset, the
first match is the sentinel; each byte before it goes to the heap cell of its offset (R364). -/
def State.scanHeader (s : State) (i : Nat) : List Byte → Except FaultCause State
  | b0 :: b1 :: b2 :: b3 :: rest =>
    if b0 = 0x1D#8 ∧ b1 = 0x1D#8 ∧ b2 = 0x1D#8 ∧ b3 = 0x1D#8 then
      .ok { s with hs := BitVec.ofNat 32 (i + 4), phase := .run }
    else
      match s.memWrite (BitVec.ofNat 32 i) (b0.setWidth 32) with
      | .error c => .error c
      | .ok s => s.scanHeader (i + 1) (b1 :: b2 :: b3 :: rest)
  | _ => .error .malformedHeader

/-- HeaderParse (R363), one step of the block: a fault discards the parse's heap writes and records `FAULT_PC` 0
(R324, R325). -/
def State.parseHeader (s : State) : Host.Outcome State Fault Refusal :=
  if imageLengthOk s.image.length then
    match s.scanHeader 0 s.image with
    | .ok t => .next t
    | .error c => .next (s.enterFault c 0#32)
  else .refused .imageTooLong

end Sys2Proof.Machine
end

