-- ==== Sys2Proof/Machine/HostPort.lean ====
section
/-! DEFINITION. What the host can do to the block and see of it (00_scope R14-R19, 47_syscall R301-R306). Starting
is `State.start`, resetting `State.resetBlock`. -/

namespace Sys2Proof.Machine

/-- The host loads an image (R14): before a run or after its end (R368). -/
def State.load (s : State) (image : List Byte) : Host.Outcome State Fault Refusal :=
  match s.phase with
  | .header => .fault .loadWhileRunning
  | .run => .fault .loadWhileRunning
  | .reset =>
    if imageLengthOk image.length then .next { s with image := image } else .refused .imageTooLong
  | .halted =>
    if imageLengthOk image.length then .next { s with image := image } else .refused .imageTooLong

/-- The host makes a reply available to a read request (R301, R304). -/
def State.hostReply (s : State) (bytes : List Byte) : State := { s with inbox := s.inbox ++ [bytes] }

/-- What the status port shows (R16, R34, R35, R45). -/
structure Status where
  regs : Regs
  flags : BitVec 6
  pc : Word
  bp : Word
  faultCause : BitVec 8
  faultPc : Word
deriving DecidableEq, Repr

/-- The status port: readable while the block is halted (R16). -/
def State.statusPort (s : State) : Option Status :=
  match s.phase with
  | .halted => some {
      regs := s.regs, flags := s.flags.word, pc := s.pc, bp := s.bp, faultCause := s.faultCause, faultPc := s.faultPc }
  | .reset => none
  | .header => none
  | .run => none

/-- Decimal ASCII digits, most significant first, at most `fuel` of them. -/
def decimalDigits : Nat → Nat → List Byte
  | 0, _ => []
  | fuel + 1, n =>
    if n < 10 then [BitVec.ofNat 8 (48 + n)]
    else decimalDigits fuel (n / 10) ++ [BitVec.ofNat 8 (48 + n % 10)]

/-- The text of `PrintDecimal(v)` (R306): unsigned, no sign, no leading zeros, no newline. -/
def decimalText (v : Word) : List Byte := decimalDigits 10 v.toNat

/-- What the host writes to standard output for one event (R301, R302, R306). -/
def HostEvent.stdoutBytes : HostEvent → List Byte
  | .write bytes => bytes
  | .read => []
  | .reply _ => []
  | .clearScreen => []
  | .printDecimal v => decimalText v

/-- Standard output of a run so far (R19, R301). -/
def State.stdout (s : State) : List Byte := s.hostLog.flatMap HostEvent.stdoutBytes

end Sys2Proof.Machine
end

