-- ==== Sys2Proof/Machine/Step.lean ====
section
/-! DEFINITION. One transition of the block (40_control R140, R145, 70_reset_and_hazards R362). -/

namespace Sys2Proof.Machine

/-- `Step` (R145): fetch, decode, execute; an undefined opcode only advances the pc (R110, R148). -/
def State.runInstruction (s : State) : Host.Outcome State Fault Refusal :=
  match s.fetchDecode with
  | .instr i _ => exec i s
  | .noOp _ _ => .next { s with pc := s.pc + 1#32 }
  | .outOfBounds => .next (s.enterFault .fetchOutOfBounds s.pc)
  | .illegalRegister => .next (s.enterFault .illegalRegister s.pc)

/-- The next transition: the host's start (R362, notes/assumptions/2.md), the header parse (R363), the Stop test
before every fetch and one instruction (R140), and idling once halted (R345). -/
def step (s : State) : Host.Outcome State Fault Refusal :=
  match s.phase with
  | .reset => .next s.start
  | .header => s.parseHeader
  | .run => if s.flags.stop then .next { s with phase := .halted } else s.runInstruction
  | .halted => .next s

/-- `s` with a table word's instruction where the next step fetches: it stands for the load, the start and the header
parse of a program that begins with that instruction (notes/assumptions/15.md). -/
def State.withFetchWord (s : State) (nbits w : Nat) : State :=
  { s with phase := .run, flags := { s.flags with stop := false } }.placeBytes s.pc (tableWordBytes nbits w)

end Sys2Proof.Machine
end

