-- ==== Sys2Proof/Safety.lean ====
section
/-! DEFINITION. The terms the statements use: what an instruction may write, what two states agree on, the invariant
of the machine, and how a run ends. -/

namespace Sys2Proof

/-! ## What an instruction may write -/

/-- The register an operand names as destination (R21). -/
def Instr.destination : Instr → Option Reg
  | .popReg r => some r
  | .movLitReg rd _ => some rd
  | .movHeapReg rd _ => some rd
  | .movRegReg rd _ => some rd
  | .mathAddReg ra _ => some ra
  | .mathSubReg ra _ => some ra
  | .mathMulReg ra _ => some ra
  | .mathDivReg ra _ => some ra
  | .bitNotReg r => some r
  | .bitAndReg ra _ => some ra
  | .bitOrReg ra _ => some ra
  | .bitXorReg ra _ => some ra
  | _ => none

/-- The writers of the four ordering flags (R28). -/
def Instr.isCompare : Instr → Bool
  | .cmpRegReg _ _ => true
  | .cmpRegLit _ _ => true
  | .cmpStackLit _ => true
  | _ => false

/-- The writers of Overflow (R29). -/
def Instr.writesOverflow : Instr → Bool
  | .mathAddReg _ _ => true
  | .mathSubReg _ _ => true
  | .mathMulReg _ _ => true
  | .mathAddStack => true
  | .mathSubStack => true
  | .mathMulStack => true
  | _ => false

/-- The instructions that can store to the heap (R62, R320's row for `HEAP_EXHAUSTED`). -/
def Instr.mayStore : Instr → Bool
  | .popHeap _ => true
  | .movLitHeap _ _ => true
  | .movRegHeap _ _ => true
  | .movHeapHeap _ _ => true
  | .syscall => true
  | _ => false

/-- The six jumps (R280). -/
def Instr.isJump : Instr → Bool
  | .jmp _ => true
  | .jmpEq _ => true
  | .jmpNe _ => true
  | .jmpGt _ => true
  | .jmpSm _ => true
  | .jmpOv _ => true
  | _ => false

/-- The undefined opcode bytes as R110 lists them. -/
def undefinedInR110 (b : Byte) : Bool :=
  let n := b.toNat
  n == 0x00 || (0x02 ≤ n && n ≤ 0x0F) || (0x16 ≤ n && n ≤ 0x1F) || (0x26 ≤ n && n ≤ 0x2F) ||
    (0x38 ≤ n && n ≤ 0x3F) || (0x48 ≤ n && n ≤ 0x4F) || (0x53 ≤ n && n ≤ 0x5F) || (0x66 ≤ n && n ≤ 0x6F) ||
    (0x71 ≤ n && n ≤ 0xFF)

end Sys2Proof

namespace Sys2Proof.Machine

/-! ## Agreement of two states, part by part -/

/-- Every general register but the one named (R20: no aliasing). -/
def SameRegsBut (rd : Reg) (s t : State) : Prop := ∀ r, r ≠ rd → t.reg r = s.reg r

/-- Every heap cell, read as an instruction reads it, and the heap's capacity. -/
def SameHeap (s t : State) : Prop := t.hcap = s.hcap ∧ ∀ a, t.memRead a = s.memRead a

/-- Every heap cell but the one at the address a store goes to; the capacity after an exact-fit growth (R65). -/
def StoredOnly (ad : Word) (s t : State) : Prop :=
  t.hcap = max s.hcap (ad.toNat + 1) ∧ ∀ a, a ≠ ad → t.memRead a = s.memRead a

/-- The stack's values and its capacity. -/
def SameStack (s t : State) : Prop := t.stack = s.stack ∧ t.scap = s.scap

/-- The ordering flags and Stop. -/
def SameFlagsButOverflow (s t : State) : Prop :=
  t.flags.equal = s.flags.equal ∧ t.flags.notEqual = s.flags.notEqual ∧ t.flags.greater = s.flags.greater ∧
    t.flags.smaller = s.flags.smaller ∧ t.flags.stop = s.flags.stop

/-- The syscall port. -/
def SamePort (s t : State) : Prop :=
  t.hostLog = s.hostLog ∧ t.inbox = s.inbox ∧ t.awaitingReply = s.awaitingReply

/-- What no instruction writes: base pointer, header size, image, run status, fault status, parameters. -/
def SameControl (s t : State) : Prop :=
  t.bp = s.bp ∧ t.hs = s.hs ∧ t.image = s.image ∧ t.phase = s.phase ∧ t.faultCause = s.faultCause ∧
    t.faultPc = s.faultPc ∧ t.params = s.params

/-! ## Conditions under which an instruction completes -/

/-- A push does not exhaust the stack (R70, R71). -/
def State.HasRoom (s : State) : Prop :=
  s.stack.length = s.scap → max 1 (2 * s.scap) ≤ s.params.stackCapLimit

/-- A store to this cell does not exhaust the heap (R65, R66). -/
def State.CanStore (s : State) (a : Word) : Prop := s.hcap ≤ a.toNat → a.toNat + 1 ≤ s.params.heapCapLimit

/-- The stack's capacity after a push (R70). -/
def State.pushedCap (s : State) : Nat := if s.stack.length = s.scap then max 1 (2 * s.scap) else s.scap

/-- The heap list holds no cell at or beyond the capacity: part of the invariant. -/
def State.HeapFits (s : State) : Prop := Memory.within s.hcap s.heap = true

/-- The stack is not longer than its capacity (R38): part of the invariant. -/
def State.StackFits (s : State) : Prop := s.stack.length ≤ s.scap

/-! ## The shapes of an outcome -/

/-- It completes in exactly the state given, and every heap cell reads as before. -/
def CompletesKeepingHeap (s : State) (o : Host.Outcome State Fault Refusal) (t : State) : Prop :=
  o = .next t ∧ SameHeap s t

/-- It completes: one register has a new value, every other register and every heap cell reads as before, and all the
rest of the state is that of `u` (`s` with the other effects). -/
def CompletesWritingReg (s : State) (o : Host.Outcome State Fault Refusal) (rd : Reg) (v : Word) (u : State) : Prop :=
  ∃ t, o = .next t ∧ t.reg rd = v ∧ SameRegsBut rd s t ∧ SameHeap s t ∧ t = { u with regs := t.regs }

/-- It completes: one heap cell has a new value, every other cell reads as before, the capacity has grown exactly as
far as the store needs, and all the rest of the state is that of `u` (`s` with the other effects). -/
def CompletesStoring (s : State) (o : Host.Outcome State Fault Refusal) (ad v : Word) (u : State) : Prop :=
  ∃ t, o = .next t ∧ t.memRead ad = v ∧ StoredOnly ad s t ∧ t = { u with heap := t.heap, hcap := t.hcap }

/-- It takes a fatal fault at this instruction: the fault status and the run status change, nothing else (R324,
R325). -/
def FaultsWith (s : State) (o : Host.Outcome State Fault Refusal) (code : BitVec 8) : Prop :=
  o = .next { s with faultCause := code, faultPc := s.pc, phase := .halted }

/-! ## The invariant -/

/-- The ordering flags after reset or any comparison (R33, R260). -/
def Flags.Consistent (f : Flags) : Prop :=
  f.notEqual = (f.greater || f.smaller) ∧ (f.equal && f.notEqual) = false ∧ (f.greater && f.smaller) = false

/-- What holds of every state a run reaches. -/
structure Inv (s : State) : Prop where
  /-- R8. -/
  params : s.params.wellFormed = true
  /-- The canonical form of the heap's list. -/
  heapWf : Memory.wf s.heap = true
  /-- Only cells below the capacity exist (R40). -/
  heapFits : s.HeapFits
  /-- R66. -/
  heapLimit : s.hcap ≤ s.params.heapCapLimit
  /-- R38. -/
  stackFits : s.StackFits
  /-- R69, R71. -/
  stackLimit : s.scap ≤ s.params.stackCapLimit
  /-- R260. -/
  flags : s.flags.Consistent
  /-- R35. -/
  bp : s.bp = 0#32
  /-- R360, R362: nothing has run before the parse is over. -/
  fresh : s.phase = .reset ∨ s.phase = .header →
    s.regs = { a := 0#32, b := 0#32, c := 0#32, d := 0#32 } ∧ s.pc = 0#32 ∧ s.hs = 4#32 ∧ s.stack = [] ∧ s.heap = [] ∧
      s.flags.stop = false ∧ s.faultCause = 0#8
  /-- R36, R43: while instructions run, `4 <= HS <= L <= 2^32 - 1`. -/
  running : s.phase = .run →
    imageLengthOk s.image.length = true ∧ 4 ≤ s.hs.toNat ∧ s.hs.toNat ≤ s.image.length ∧ s.faultCause = 0#8
  /-- R150: a halted block has stopped or faulted, never both. -/
  ended : s.phase = .halted →
    (s.flags.stop = true ∧ s.faultCause = 0#8) ∨
      (s.flags.stop = false ∧ 1 ≤ s.faultCause.toNat ∧ s.faultCause.toNat ≤ 7)
  /-- R304: a request is out only while the unit stands at the `syscall` that sent it. -/
  waiting : s.awaitingReply = true →
    s.phase = .run ∧ s.flags.stop = false ∧ s.reg .a = 1#32 ∧ ∃ rest, s.fetchDecode = .instr .syscall rest

/-! ## Hidden state -/

/-- Two states that a program cannot tell apart: only capacities and their limits differ (R38, R41). -/
def SameButCapacities (s t : State) : Prop :=
  t = { s with
    scap := t.scap, hcap := t.hcap,
    params := { t.params with opcodeMap := s.params.opcodeMap } }

/-! ## Sequences of stack operations -/

/-- Pushes in list order. -/
def State.pushAll : State → List Word → Except FaultCause State
  | s, [] => .ok s
  | s, v :: vs => (s.push v).bind fun s => State.pushAll s vs

/-- So many pops, the values in the order they come. -/
def State.popMany : State → Nat → Except FaultCause (List Word × State)
  | s, 0 => .ok ([], s)
  | s, n + 1 => s.pop.bind fun (v, s) => (State.popMany s n).bind fun (vs, s) => .ok (v :: vs, s)

/-! ## How a run ends -/

/-- Stopped by `exit` (R150 a). -/
def State.stopped (s : State) : Prop := s.phase = .halted ∧ s.flags.stop = true ∧ s.faultCause = 0#8

/-- Halted by a fatal fault (R150 b). -/
def State.faulted (s : State) : Prop := s.phase = .halted ∧ s.faultCause ≠ 0#8

end Sys2Proof.Machine
end

