-- ==== Sys2Proof/Certificates/Slice0/Obligations.lean ====
section
/-! DEFINITION. The statements for the provers, in the order of spec/: encoding, fetch, one group per instruction
family, the traps, the syscall port, the header parse, reset, and the rules about the whole machine. Each docstring
names the rule it formalises. `CompletesKeepingHeap`, `CompletesWritingReg`, `CompletesStoring` and `FaultsWith`
(Safety.lean) say that `exec` answers a next state, which one, and that nothing else changes. -/

open Sys2Proof Sys2Proof.Machine

/-! ## Encoding -/

/-- R104, R105, R108: decoding an encoded instruction gives it back, whatever bytes follow. -/
def Obligations.DecodeOfEncode : Prop :=
  ∀ (i : Instr) (rest : List Byte), decode defaultOpcodeMap (encode i ++ rest) = .instr i rest

/-- The same under any opcode map that offers the instruction (R8's `OPCODE_MAP`). That a byte named twice counts with
its first entry is the model's choice (notes/assumptions/13.md). -/
def Obligations.DecodeOfEncodeUnderAnyMap : Prop :=
  ∀ (m : OpcodeMap) (i : Instr) (rest : List Byte), i.wellFormed m = true →
    ∃ bytes, encodeIn m i = some bytes ∧ decode m (bytes ++ rest) = .instr i rest

/-- R104, R106, R109: only the encoding of an instruction decodes to it. -/
def Obligations.OnlyEncodingsDecode : Prop :=
  ∀ (bs rest : List Byte) (i : Instr), decode defaultOpcodeMap bs = .instr i rest → bs = encode i ++ rest

/-- Words written out from the encodings of 41_stack to 47_syscall. -/
def Obligations.SpecWordsDecode : Prop :=
  decode defaultOpcodeMap [0x01] = .instr .exit [] ∧
  decode defaultOpcodeMap [0x10, 0x00, 0x00, 0x00, 0x03] = .instr (.pushLit 3) [] ∧
  decode defaultOpcodeMap [0x20, 0x00, 0x00, 0x00, 0x00, 0x05] = .instr (.movLitReg .a 5) [] ∧
  decode defaultOpcodeMap [0x23, 0x00, 0x00, 0x00, 0x10, 0x00] = .instr (.movRegHeap 16 .a) [] ∧
  decode defaultOpcodeMap [0x31, 0x02, 0x01] = .instr (.mathSubReg .c .b) [] ∧
  decode defaultOpcodeMap [0x43, 0x00, 0x01] = .instr (.bitXorReg .a .b) [] ∧
  decode defaultOpcodeMap [0x52, 0x00, 0x00, 0x00, 0x05] = .instr (.cmpStackLit 5) [] ∧
  decode defaultOpcodeMap [0x62, 0x00, 0x00, 0x00, 0x12] = .instr (.jmpNe 18) [] ∧
  decode defaultOpcodeMap [0x70] = .instr .syscall []

/-- R110: exactly the 217 bytes the rule lists are undefined under the map of R108, and such an opcode is a no-op of
length 1: the step's only effect is the pc's advance by 1. -/
def Obligations.UndefinedOpcodeOnlyAdvancesPc : Prop :=
  (∀ b : Byte, defaultOpcodeMap.find b = none ↔ undefinedInR110 b = true) ∧
  ((List.range 256).filter fun n => undefinedInR110 (BitVec.ofNat 8 n)).length = 217 ∧
  ∀ (s : State) (b : Byte), s.phase = .run → s.flags.stop = false → s.params.opcodeMap = defaultOpcodeMap →
    s.imgFetch s.pc = some b → undefinedInR110 b = true → step s = .next { s with pc := s.pc + 1 }

/-- R102: 0-3 name A-D; any other byte, met as a first or a second operand, takes `ILLEGAL_REGISTER` before anything
is read or written, whether or not the operands after it are there. -/
def Obligations.InvalidRegisterByteFaults : Prop :=
  (Reg.ofByte 0 = some .a ∧ Reg.ofByte 1 = some .b ∧ Reg.ofByte 2 = some .c ∧ Reg.ofByte 3 = some .d) ∧
  ∀ (s : State) (o b : Byte) (op : Op) (rest : List Byte), s.phase = .run → s.flags.stop = false →
    s.params.opcodeMap.find o = some op → 4 ≤ b.toNat →
    ((op.format = .r ∨ op.format = .rr ∨ op.format = .rl) → s.fetchBytes maxLength s.pc = o :: b :: rest →
      FaultsWith s (step s) 3) ∧
    (∀ b1 : Byte, op.format = .rr → b1.toNat < 4 → s.fetchBytes maxLength s.pc = o :: b1 :: b :: rest →
      FaultsWith s (step s) 3) ∧
    (∀ l0 l1 l2 l3 : Byte, op.format = .lr → s.fetchBytes maxLength s.pc = o :: l0 :: l1 :: l2 :: l3 :: b :: rest →
      FaultsWith s (step s) 3)

/-- R144: a fetch at or past the end of the image, of an opcode or of any operand byte, takes
`FETCH_OUT_OF_BOUNDS`; what was fetched before it is discarded. The operand bytes that are there are those of some
instruction (no register byte among them is invalid, which would be the earlier fault of R326). -/
def Obligations.FetchPastTheImageFaults : Prop :=
  ∀ s : State, s.phase = .run → s.flags.stop = false →
    (s.image.length ≤ s.pc.toNat + s.hs.toNat → FaultsWith s (step s) 2) ∧
    (∀ (o : Byte) (i : Instr) (k : Nat), s.params.opcodeMap.find o = some i.op → imageLengthOk s.image.length = true →
      k < (operandBytes i).length → s.image.drop (s.pc.toNat + s.hs.toNat) = o :: (operandBytes i).take k →
      FaultsWith s (step s) 2)

/-- R141-R143, R145, R326: decoding a window of bytes is the byte-by-byte fetch of the spec, with the same instruction,
the same pc after the operands and the same first fault. -/
def Obligations.WindowDecodeIsFetchInOrder : Prop :=
  ∀ s : State, fetchedAt s.pc s.fetchDecode = s.fetchInOrder

/-- R140, R145: when the bytes at the pc decode to an instruction, the step is `exec` of it, which moves the pc past it
itself. -/
def Obligations.StepRunsTheDecodedInstruction : Prop :=
  ∀ (s : State) (i : Instr) (rest : List Byte), s.phase = .run → s.flags.stop = false →
    decode s.params.opcodeMap (s.fetchBytes maxLength s.pc) = .instr i rest → step s = exec i s

/-- R60, R141: the same from the image itself, under any opcode map. -/
def Obligations.StepRunsTheInstructionInTheImage : Prop :=
  ∀ (s : State) (o : Byte) (i : Instr) (rest : List Byte), s.phase = .run → s.flags.stop = false →
    s.params.opcodeMap.find o = some i.op → imageLengthOk s.image.length = true →
    s.image.drop (s.pc.toNat + s.hs.toNat) = o :: (operandBytes i ++ rest) → step s = exec i s

/-! ## Control -/

/-- R146 and, for the step after it, R140: `exit` sets Stop and nothing else but the pc; the next step halts there. -/
def Obligations.ExitSetsStopThenHalts : Prop :=
  ∀ s : State,
    CompletesKeepingHeap s (exec .exit s) { s with flags := { s.flags with stop := true }, pc := s.pc + 1 } ∧
    (s.phase = .run → ∀ t, exec .exit s = .next t → step t = .next { t with phase := .halted })

/-! ## Stack -/

/-- R170-R172, R70: with room, a push adds the value on top, doubles a full capacity and changes nothing else. -/
def Obligations.PushesComplete : Prop :=
  ∀ s : State, s.HasRoom →
    (∀ l, CompletesKeepingHeap s (exec (.pushLit l) s)
      { s with stack := l :: s.stack, scap := s.pushedCap, pc := s.pc + 5 }) ∧
    (∀ r, CompletesKeepingHeap s (exec (.pushReg r) s)
      { s with stack := s.reg r :: s.stack, scap := s.pushedCap, pc := s.pc + 2 }) ∧
    (∀ l, CompletesKeepingHeap s (exec (.pushHeap l) s)
      { s with stack := s.memRead l :: s.stack, scap := s.pushedCap, pc := s.pc + 5 })

/-- R173, R72. -/
def Obligations.PopRegCompletes : Prop :=
  ∀ (s : State) (r : Reg) (v : Word) (rest : List Word), s.stack = v :: rest →
    CompletesWritingReg s (exec (.popReg r) s) r v { s with stack := rest, pc := s.pc + 2 }

/-- R174, R65, R72: the address is the literal. -/
def Obligations.PopHeapCompletes : Prop :=
  ∀ (s : State) (l v : Word) (rest : List Word), s.stack = v :: rest → s.CanStore l →
    Memory.wf s.heap = true → s.HeapFits →
    CompletesStoring s (exec (.popHeap l) s) l v { s with stack := rest, pc := s.pc + 5 }

/-- R175, R73: the true top is duplicated. -/
def Obligations.DupCompletes : Prop :=
  ∀ (s : State) (v : Word) (rest : List Word), s.stack = v :: rest → s.HasRoom →
    CompletesKeepingHeap s (exec .dup s) { s with stack := v :: v :: rest, scap := s.pushedCap, pc := s.pc + 1 }

/-- R71: a push that would grow the stack past `STACK_CAP_LIMIT` takes `STACK_EXHAUSTED`. -/
def Obligations.PushPastTheLimitFaults : Prop :=
  ∀ s : State, s.stack.length = s.scap → s.params.stackCapLimit < max 1 (2 * s.scap) →
    (∀ l, FaultsWith s (exec (.pushLit l) s) 7) ∧ (∀ r, FaultsWith s (exec (.pushReg r) s) 7) ∧
    (∀ l, FaultsWith s (exec (.pushHeap l) s) 7) ∧ (s.stack ≠ [] → FaultsWith s (exec .dup s) 7)

/-- R72, R73, R320: popping or peeking an empty stack takes `STACK_UNDERFLOW`; a binary stack form needs two values,
and keeps the one it popped when there is no second (R325). -/
def Obligations.StackUnderflowFaults : Prop :=
  ∀ s : State,
    (s.stack = [] →
      (∀ r, FaultsWith s (exec (.popReg r) s) 4) ∧ (∀ l, FaultsWith s (exec (.popHeap l) s) 4) ∧
      FaultsWith s (exec .dup s) 4 ∧ (∀ l, FaultsWith s (exec (.cmpStackLit l) s) 4) ∧
      FaultsWith s (exec .bitNotStack s) 4) ∧
    (s.stack.length < 2 →
      FaultsWith s (exec .mathAddStack s) 4 ∧ FaultsWith s (exec .mathSubStack s) 4 ∧
      FaultsWith s (exec .mathMulStack s) 4 ∧ FaultsWith s (exec .mathDivStack s) 4 ∧
      FaultsWith s (exec .bitAndStack s) 4 ∧ FaultsWith s (exec .bitOrStack s) 4 ∧
      FaultsWith s (exec .bitXorStack s) 4)

/-- R70, R72, R84 (S4 of 95_test_vectors): what is pushed comes back in the reverse order and leaves the stack as it
was. -/
def Obligations.PopsReturnPushesInReverse : Prop :=
  ∀ (s t : State) (vs : List Word), s.pushAll vs = .ok t →
    t.stack = vs.reverse ++ s.stack ∧ t.popMany vs.length = .ok (vs.reverse, { t with stack := s.stack })

/-! ## Moves -/

/-- R190, R192, R194: the destination register gets the value; nothing else changes but the pc. -/
def Obligations.MovesToARegisterComplete : Prop :=
  ∀ (s : State) (rd : Reg),
    (∀ l, CompletesWritingReg s (exec (.movLitReg rd l) s) rd l { s with pc := s.pc + 6 }) ∧
    (∀ a, CompletesWritingReg s (exec (.movHeapReg rd a) s) rd (s.memRead a) { s with pc := s.pc + 6 }) ∧
    (∀ rs, CompletesWritingReg s (exec (.movRegReg rd rs) s) rd (s.reg rs) { s with pc := s.pc + 3 })

/-- R191, R193, R195, R65: the destination cell gets the value; nothing else changes but the capacity and the pc. -/
def Obligations.MovesToTheHeapComplete : Prop :=
  ∀ (s : State) (ad : Word), s.CanStore ad → Memory.wf s.heap = true → s.HeapFits →
    (∀ l, CompletesStoring s (exec (.movLitHeap ad l) s) ad l { s with pc := s.pc + 9 }) ∧
    (∀ rs, CompletesStoring s (exec (.movRegHeap ad rs) s) ad (s.reg rs) { s with pc := s.pc + 6 }) ∧
    (∀ a, CompletesStoring s (exec (.movHeapHeap ad a) s) ad (s.memRead a) { s with pc := s.pc + 9 })

/-- R65, R66: a store that would grow the heap past `HEAP_CAP_LIMIT` takes `HEAP_EXHAUSTED`. -/
def Obligations.StorePastTheLimitFaults : Prop :=
  ∀ (s : State) (ad : Word), s.hcap ≤ ad.toNat → s.params.heapCapLimit < ad.toNat + 1 →
    (s.stack ≠ [] → FaultsWith s (exec (.popHeap ad) s) 6) ∧
    (∀ l, FaultsWith s (exec (.movLitHeap ad l) s) 6) ∧ (∀ rs, FaultsWith s (exec (.movRegHeap ad rs) s) 6) ∧
    (∀ a, FaultsWith s (exec (.movHeapHeap ad a) s) 6)

/-- R63 (S1, S2 of 95_test_vectors): a write is read back, every other cell reads as before, the capacity afterwards is
at least the address plus 1; and after reset every cell reads 0. -/
def Obligations.HeapReadsTheLastWrite : Prop :=
  (∀ (s t : State) (a v : Word), Memory.wf s.heap = true → s.HeapFits → s.memWrite a v = .ok t →
    t.memRead a = v ∧ (∀ b, b ≠ a → t.memRead b = s.memRead b) ∧ a.toNat + 1 ≤ t.hcap) ∧
  ∀ (s : State) (a : Word), s.resetBlock.memRead a = 0

/-! ## Arithmetic -/

/-- R210: the exact result modulo 2^32, Overflow 1 or 0 by whether the exact result lies in 0 .. 2^32 - 1, no other
flag; on a register pair and on the top two stack values. -/
def Obligations.AddSubMulComplete : Prop :=
  (∀ (s : State) (ra rb : Reg) (a b : Nat), a = (s.reg ra).toNat → b = (s.reg rb).toNat →
    CompletesWritingReg s (exec (.mathAddReg ra rb) s) ra (BitVec.ofNat 32 (a + b))
      { s with flags := { s.flags with overflow := decide (4294967295 < a + b) }, pc := s.pc + 3 } ∧
    CompletesWritingReg s (exec (.mathSubReg ra rb) s) ra (BitVec.ofInt 32 ((a : Int) - b))
      { s with flags := { s.flags with overflow := decide ((a : Int) - b < 0) }, pc := s.pc + 3 } ∧
    CompletesWritingReg s (exec (.mathMulReg ra rb) s) ra (BitVec.ofNat 32 (a * b))
      { s with flags := { s.flags with overflow := decide (4294967295 < a * b) }, pc := s.pc + 3 }) ∧
  ∀ (s : State) (x y : Word) (rest : List Word) (a b : Nat), s.stack = y :: x :: rest → s.StackFits →
    a = x.toNat → b = y.toNat →
    CompletesKeepingHeap s (exec .mathAddStack s)
      { s with stack := BitVec.ofNat 32 (a + b) :: rest,
               flags := { s.flags with overflow := decide (4294967295 < a + b) }, pc := s.pc + 1 } ∧
    CompletesKeepingHeap s (exec .mathSubStack s)
      { s with stack := BitVec.ofInt 32 ((a : Int) - b) :: rest,
               flags := { s.flags with overflow := decide ((a : Int) - b < 0) }, pc := s.pc + 1 } ∧
    CompletesKeepingHeap s (exec .mathMulStack s)
      { s with stack := BitVec.ofNat 32 (a * b) :: rest,
               flags := { s.flags with overflow := decide (4294967295 < a * b) }, pc := s.pc + 1 }

/-- R212: a nonzero divisor gives the quotient toward zero, which is at most the dividend, and no flag changes; a zero
divisor takes `DIVIDE_BY_ZERO`. -/
def Obligations.DivideCompletesOrFaults : Prop :=
  (∀ (s : State) (ra rb : Reg),
    (s.reg rb ≠ 0 →
      CompletesWritingReg s (exec (.mathDivReg ra rb) s) ra (BitVec.ofNat 32 ((s.reg ra).toNat / (s.reg rb).toNat))
        { s with pc := s.pc + 3 } ∧
      (s.reg ra).toNat / (s.reg rb).toNat ≤ (s.reg ra).toNat) ∧
    (s.reg rb = 0 → FaultsWith s (exec (.mathDivReg ra rb) s) 5)) ∧
  ∀ (s : State) (a b : Word) (rest : List Word), s.stack = b :: a :: rest →
    (b ≠ 0 → s.StackFits →
      CompletesKeepingHeap s (exec .mathDivStack s)
        { s with stack := BitVec.ofNat 32 (a.toNat / b.toNat) :: rest, pc := s.pc + 1 }) ∧
    (b = 0 → FaultsWith s (exec .mathDivStack s) 5)

/-- R211: the overflow tests are the saturating-boundary forms, made without a wider sum or product. -/
def Obligations.OverflowIsTheBoundaryTest : Prop :=
  ∀ a b : Word,
    addOverflows a b = decide (4294967295 - b.toNat < a.toNat) ∧ subOverflows a b = decide (a.toNat < b.toNat) ∧
    mulOverflows a b = (decide (b.toNat ≠ 0) && decide (4294967295 / b.toNat < a.toNat))

/-! ## Bitwise -/

/-- R240: bit by bit, no flag; `not a` is also `0xFFFFFFFF - a`; on registers. -/
def Obligations.BitwiseRegisterFormsComplete : Prop :=
  ∀ (s : State) (ra rb : Reg),
    CompletesWritingReg s (exec (.bitNotReg ra) s) ra (0xFFFFFFFF - s.reg ra) { s with pc := s.pc + 2 } ∧
    (∃ v : Word, CompletesWritingReg s (exec (.bitNotReg ra) s) ra v { s with pc := s.pc + 2 } ∧
      ∀ k, k < 32 → v.getLsbD k = !(s.reg ra).getLsbD k) ∧
    (∃ v : Word, CompletesWritingReg s (exec (.bitAndReg ra rb) s) ra v { s with pc := s.pc + 3 } ∧
      ∀ k, v.getLsbD k = ((s.reg ra).getLsbD k && (s.reg rb).getLsbD k)) ∧
    (∃ v : Word, CompletesWritingReg s (exec (.bitOrReg ra rb) s) ra v { s with pc := s.pc + 3 } ∧
      ∀ k, v.getLsbD k = ((s.reg ra).getLsbD k || (s.reg rb).getLsbD k)) ∧
    (∃ v : Word, CompletesWritingReg s (exec (.bitXorReg ra rb) s) ra v { s with pc := s.pc + 3 } ∧
      ∀ k, v.getLsbD k = ((s.reg ra).getLsbD k != (s.reg rb).getLsbD k))

/-- R240, R241: the stack forms pop their operands and push one result; no flag. -/
def Obligations.BitwiseStackFormsComplete : Prop :=
  (∀ (s : State) (a : Word) (rest : List Word), s.stack = a :: rest → s.StackFits →
    CompletesKeepingHeap s (exec .bitNotStack s) { s with stack := (0xFFFFFFFF - a) :: rest, pc := s.pc + 1 }) ∧
  ∀ (s : State) (a b : Word) (rest : List Word), s.stack = b :: a :: rest → s.StackFits →
    CompletesKeepingHeap s (exec .bitAndStack s) { s with stack := (a &&& b) :: rest, pc := s.pc + 1 } ∧
    CompletesKeepingHeap s (exec .bitOrStack s) { s with stack := (a ||| b) :: rest, pc := s.pc + 1 } ∧
    CompletesKeepingHeap s (exec .bitXorStack s) { s with stack := (a ^^^ b) :: rest, pc := s.pc + 1 }

/-! ## Compare -/

/-- R260: the four ordering flags, all at once, from the unsigned comparison; Overflow and Stop stay; exactly one of
Equal, Greater, Smaller holds and NotEqual is the opposite of Equal. -/
def Obligations.CompareWritesTheOrderingFlags : Prop :=
  (∀ (f : Flags) (a b : Word),
    f.compare a b = { f with
      equal := decide (a.toNat = b.toNat), notEqual := decide (a.toNat ≠ b.toNat),
      greater := decide (b.toNat < a.toNat), smaller := decide (a.toNat < b.toNat) }) ∧
  ∀ (f : Flags) (a b : Word) (g : Flags), g = f.compare a b →
    (g.equal || g.greater || g.smaller) = true ∧ (g.equal && g.greater) = false ∧ (g.equal && g.smaller) = false ∧
      (g.greater && g.smaller) = false ∧ g.notEqual = !g.equal

/-- R261-R263: the comparisons complete, write the ordering flags of R260 and neither write nor consume an operand. -/
def Obligations.ComparesComplete : Prop :=
  ∀ s : State,
    (∀ ra rb, CompletesKeepingHeap s (exec (.cmpRegReg ra rb) s)
      { s with flags := s.flags.compare (s.reg ra) (s.reg rb), pc := s.pc + 3 }) ∧
    (∀ ra l, CompletesKeepingHeap s (exec (.cmpRegLit ra l) s)
      { s with flags := s.flags.compare (s.reg ra) l, pc := s.pc + 6 }) ∧
    (∀ l a rest, s.stack = a :: rest → CompletesKeepingHeap s (exec (.cmpStackLit l) s)
      { s with flags := s.flags.compare a l, pc := s.pc + 5 })

/-! ## Jumps -/

/-- R280-R286: a taken jump leaves the pc at exactly its target (also at 0, through 0xFFFFFFFF), one not taken at the
next instruction, five bytes on; nothing else changes. -/
def Obligations.JumpsLandOnTheirTarget : Prop :=
  ∀ (s : State) (t : Word),
    CompletesKeepingHeap s (exec (.jmp t) s) { s with pc := t } ∧
    CompletesKeepingHeap s (exec (.jmpEq t) s) { s with pc := if s.flags.equal then t else s.pc + 5 } ∧
    CompletesKeepingHeap s (exec (.jmpNe t) s) { s with pc := if s.flags.notEqual then t else s.pc + 5 } ∧
    CompletesKeepingHeap s (exec (.jmpGt t) s) { s with pc := if s.flags.greater then t else s.pc + 5 } ∧
    CompletesKeepingHeap s (exec (.jmpSm t) s) { s with pc := if s.flags.smaller then t else s.pc + 5 } ∧
    CompletesKeepingHeap s (exec (.jmpOv t) s) { s with pc := if s.flags.overflow then t else s.pc + 5 }

/-! ## Syscall -/

/-- R302: with A = 0 one `Write` of 4 * C bytes is sent: for each cell from B upward, addresses wrapping, its four
bytes most significant first (a cell at or beyond the capacity gives zeros); nothing else changes. -/
def Obligations.SyscallWriteSendsTheCells : Prop :=
  (∀ (s : State) (bytes : List Byte), s.reg .a = 0 →
    bytes = (List.range (s.reg .c).toNat).flatMap (fun k =>
      let v := (s.memRead (s.reg .b + BitVec.ofNat 32 k)).toNat
      [BitVec.ofNat 8 (v / 16777216), BitVec.ofNat 8 (v / 65536), BitVec.ofNat 8 (v / 256), BitVec.ofNat 8 v]) →
    CompletesKeepingHeap s (exec .syscall s) { s with hostLog := s.hostLog ++ [.write bytes], pc := s.pc + 1 } ∧
    bytes.length = 4 * (s.reg .c).toNat) ∧
  ∀ (s : State) (a : Word), s.hcap ≤ a.toNat → s.memRead a = 0

/-- R303: with A = 1 and a reply, byte i goes, zero-extended, to cell (B + i) mod 2^32 (where the reply is so long that
a later byte goes to the same cell, the later byte stays), the heap growing as any store grows it; C is not consulted,
no register tells the count, and no other cell or state changes. How the port is recorded is the model's own
(notes/assumptions/6.md, 7.md). -/
def Obligations.SyscallReadStoresTheReply : Prop :=
  ∀ (s : State) (bytes : List Byte) (later : List (List Byte)), s.reg .a = 1 → s.inbox = bytes :: later →
    Memory.wf s.heap = true → s.HeapFits →
    (∀ k, k < bytes.length → s.CanStore (s.reg .b + BitVec.ofNat 32 k)) →
    ∃ t, exec .syscall s = .next t ∧
      t = { s with
        heap := t.heap, hcap := t.hcap, pc := s.pc + 1, inbox := later, awaitingReply := false,
        hostLog := (if s.awaitingReply then s.hostLog else s.hostLog ++ [.read]) ++ [.reply bytes] } ∧
      (∀ (k : Nat) (h : k < bytes.length),
        (∀ j, k < j → j < bytes.length → s.reg .b + BitVec.ofNat 32 j ≠ s.reg .b + BitVec.ofNat 32 k) →
        t.memRead (s.reg .b + BitVec.ofNat 32 k) = (bytes[k]).setWidth 32) ∧
      (∀ a, (∀ k, k < bytes.length → a ≠ s.reg .b + BitVec.ofNat 32 k) → t.memRead a = s.memRead a) ∧
      s.hcap ≤ t.hcap ∧ (∀ k, k < bytes.length → (s.reg .b + BitVec.ofNat 32 k).toNat < t.hcap) ∧
      (t.hcap = s.hcap ∨ ∃ k, k < bytes.length ∧ t.hcap = (s.reg .b + BitVec.ofNat 32 k).toNat + 1)

/-- R304: while the host has no reply the unit waits: the request is sent once, nothing else changes, and the machine
stays in that state however many steps are taken. That a wait is steps that change nothing is the model's reading
(notes/assumptions/6.md). -/
def Obligations.SyscallReadWaitsForTheReply : Prop :=
  (∀ s : State, s.reg .a = 1 → s.inbox = [] →
    CompletesKeepingHeap s (exec .syscall s) { s with
      awaitingReply := true, hostLog := if s.awaitingReply then s.hostLog else s.hostLog ++ [.read] }) ∧
  ∀ (s : State) (rest : List Byte) (k : Nat), s.phase = .run → s.flags.stop = false →
    s.fetchDecode = .instr .syscall rest → s.reg .a = 1 → s.inbox = [] → s.awaitingReply = true →
    Host.Core.run Sys2Proof.core k s = .next s

/-- R308: a reply that does not fit under `HEAP_CAP_LIMIT` takes `HEAP_EXHAUSTED`: no cell is written, the reply is
lost, and the request stays sent. How the port is recorded is the model's own (notes/assumptions/6.md, 7.md). -/
def Obligations.SyscallReadPastTheLimitFaults : Prop :=
  ∀ (s : State) (bytes : List Byte) (later : List (List Byte)) (k : Nat), s.reg .a = 1 → s.inbox = bytes :: later →
    k < bytes.length → ¬ s.CanStore (s.reg .b + BitVec.ofNat 32 k) →
    exec .syscall s = .next { s with
      inbox := later, awaitingReply := false,
      hostLog := (if s.awaitingReply then s.hostLog else s.hostLog ++ [.read]) ++ [.reply bytes],
      faultCause := 6, faultPc := s.pc, phase := .halted }

/-- R305, R307 and the request of R306: A = 2 and A = 3 send one request and change nothing else; any other value of A
sends nothing. -/
def Obligations.SyscallClearPrintAndNoOp : Prop :=
  ∀ s : State,
    (s.reg .a = 2 →
      CompletesKeepingHeap s (exec .syscall s) { s with hostLog := s.hostLog ++ [.clearScreen], pc := s.pc + 1 }) ∧
    (s.reg .a = 3 → CompletesKeepingHeap s (exec .syscall s)
      { s with hostLog := s.hostLog ++ [.printDecimal (s.reg .b)], pc := s.pc + 1 }) ∧
    (4 ≤ (s.reg .a).toNat → CompletesKeepingHeap s (exec .syscall s) { s with pc := s.pc + 1 })

/-- R306: function 3 sends `PrintDecimal(B)`, and what the host writes for it is the decimal digits of B in ASCII: no
sign, no leading zero, "0" for 0, nothing after it. -/
def Obligations.PrintedTextIsTheDecimalValue : Prop :=
  (∀ s : State, s.reg .a = 3 → ∃ t, exec .syscall s = .next t ∧
    t.hostLog = s.hostLog ++ [.printDecimal (s.reg .b)] ∧ t.stdout = s.stdout ++ decimalText (s.reg .b)) ∧
  ∀ v : Word,
    (decimalText v).foldl (fun n d => 10 * n + (d.toNat - 48)) 0 = v.toNat ∧
    (∀ d ∈ decimalText v, 48 ≤ d.toNat ∧ d.toNat ≤ 57) ∧
    (v ≠ 0 → (decimalText v).head? ≠ some 48) ∧ decimalText 0 = [48]

/-- R17: a syscall is the only way to the host: an instruction that is no syscall neither reads nor writes the port. -/
def Obligations.OnlySyscallReachesTheHost : Prop :=
  ∀ (i : Instr) (s t : State) (log : List HostEvent) (box : List (List Byte)) (w : Bool), i ≠ .syscall →
    exec i s = .next t →
    SamePort s t ∧
    exec i { s with hostLog := log, inbox := box, awaitingReply := w } =
      .next { t with hostLog := log, inbox := box, awaitingReply := w }

/-! ## Start and header parse -/

/-- R364, R366: N header bytes followed by the sentinel give `HS = N + 4`, heap cells 0 to N - 1 with those bytes,
a capacity of at least N, and the block runs; nothing else changes. -/
def Obligations.HeaderParseLoadsTheHeader : Prop :=
  ∀ (s : State) (header rest : List Byte), s.phase = .header → Memory.wf s.heap = true → s.HeapFits →
    s.image = header ++ [0x1D, 0x1D, 0x1D, 0x1D] ++ rest → imageLengthOk s.image.length = true →
    (∀ k, k < header.length → (s.image.drop k).take 4 ≠ [0x1D, 0x1D, 0x1D, 0x1D]) →
    header.length ≤ max s.hcap s.params.heapCapLimit →
    ∃ t, step s = .next t ∧
      t = { s with
        heap := t.heap, hcap := max s.hcap header.length, hs := BitVec.ofNat 32 (header.length + 4),
        phase := .run } ∧
      t.hs.toNat = header.length + 4 ∧
      (∀ (k : Nat) (h : k < header.length), t.memRead (BitVec.ofNat 32 k) = (header[k]).setWidth 32) ∧
      ∀ a : Word, header.length ≤ a.toNat → t.memRead a = s.memRead a

/-- R363: an image with no sentinel window, or shorter than four bytes, takes `MALFORMED_HEADER` with `FAULT_PC` 0 and
the parse's heap writes discarded, as long as the heap can hold the bytes scanned. -/
def Obligations.ImageWithoutSentinelFaults : Prop :=
  ∀ s : State, s.phase = .header → imageLengthOk s.image.length = true → hasSentinel s.image = false →
    s.image.length ≤ max s.hcap s.params.heapCapLimit + 3 →
    step s = .next { s with faultCause := 1, faultPc := 0, phase := .halted }

/-- R364: a header longer than `HEAP_CAP_LIMIT` takes `HEAP_EXHAUSTED` with `FAULT_PC` 0 and the parse's heap writes
discarded. -/
def Obligations.HeaderPastTheHeapLimitFaults : Prop :=
  ∀ (s : State) (header rest : List Byte), s.phase = .header → s.hcap ≤ s.params.heapCapLimit →
    s.image = header ++ [0x1D, 0x1D, 0x1D, 0x1D] ++ rest → imageLengthOk s.image.length = true →
    (∀ k, k < header.length → (s.image.drop k).take 4 ≠ [0x1D, 0x1D, 0x1D, 0x1D]) →
    s.params.heapCapLimit < header.length →
    step s = .next { s with faultCause := 6, faultPc := 0, phase := .halted }

/-- R362: a start moves a reset block to the header parse and does nothing in any other phase; the step of a reset
block is that start (the model's choice, notes/assumptions/2.md). -/
def Obligations.StartOnlyFromReset : Prop :=
  ∀ s : State,
    (s.phase = .reset → s.start = { s with phase := .header } ∧ step s = .next s.start) ∧
    (s.phase ≠ .reset → s.start = s)

/-! ## Reset -/

/-- R360: reset puts every piece of state at its reset value and leaves the image, whatever the state was and whatever
the parameters are. (What it does to the model's own fields is no rule and not said here. The rule names no phase; that
a reset may be applied to a running block at all is the model's choice, notes/assumptions/21.md.) -/
def Obligations.ResetValues : Prop :=
  ∀ s : State,
    (∀ r, s.resetBlock.reg r = 0) ∧ s.resetBlock.pc = 0 ∧
    s.resetBlock.flags = ⟨false, false, false, false, false, false⟩ ∧ s.resetBlock.bp = 0 ∧ s.resetBlock.hs = 4 ∧
    s.resetBlock.stack = [] ∧ s.resetBlock.scap = s.params.stackInitCap ∧ (∀ a, s.resetBlock.memRead a = 0) ∧
    s.resetBlock.hcap = s.params.heapInitCap ∧ s.resetBlock.phase = .reset ∧ s.resetBlock.faultCause = 0 ∧
    s.resetBlock.faultPc = 0 ∧ s.resetBlock.image = s.image ∧ s.resetBlock.params = s.params

/-! ## The end of a run -/

/-- R140: while the block runs, with Stop set it halts and fetches nothing, with Stop clear it performs one step (R145)
of the instruction at the pc. -/
def Obligations.StopHaltsBeforeTheFetch : Prop :=
  ∀ s : State, s.phase = .run →
    (s.flags.stop = true → step s = .next { s with phase := .halted }) ∧
    (s.flags.stop = false → step s = s.runInstruction)

/-- R328: only reset leaves `Halted`: however many steps are taken, and whatever the host does but reset, the block
stays halted with its fault status; reset clears the fault status. That a step of a halted block answers the same state
is the model's reading (notes/assumptions/8.md). -/
def Obligations.OnlyResetLeavesHalted : Prop :=
  ∀ s : State, s.phase = .halted →
    (∀ k, Host.Core.run Sys2Proof.core k s = .next s) ∧
    (∀ img t, s.load img = .next t → t.phase = .halted ∧ t.faultCause = s.faultCause ∧ t.faultPc = s.faultPc) ∧
    (s.start = s ∧ ∀ bytes, (s.hostReply bytes).phase = .halted) ∧
    s.resetBlock.phase = .reset ∧ s.resetBlock.faultCause = 0 ∧ s.resetBlock.faultPc = 0

/-- R324, R325: a step that records a fault halts the block, records one of the codes 1-7 and the pc of the faulting
instruction (0 in the header parse), and discards every register, flag, pc, stack and heap write; what was sent to the
host stays sent. -/
def Obligations.FaultsArePrecise : Prop :=
  ∀ s t : State, s.faultCause = 0 → step s = .next t → t.faultCause ≠ 0 →
    t.phase = .halted ∧ 1 ≤ t.faultCause.toNat ∧ t.faultCause.toNat ≤ 7 ∧
    t.faultPc = (if s.phase = .header then 0 else s.pc) ∧
    t = { s with
      faultCause := t.faultCause, faultPc := t.faultPc, phase := .halted,
      hostLog := t.hostLog, inbox := t.inbox, awaitingReply := t.awaitingReply } ∧
    ∃ sent, t.hostLog = s.hostLog ++ sent

/-- R15, R150, R323: a step always answers a next state, but for the header parse of an image longer than the spec
admits, which is refused (the refusal is the model's choice, notes/assumptions/10.md). -/
def Obligations.EveryStepAnswers : Prop :=
  ∀ s : State, (∃ t, step s = .next t) ∨
    (s.phase = .header ∧ 4294967295 < s.image.length ∧ step s = .refused .imageTooLong)

/-! ## Who writes what -/

/-- R21: no instruction writes a register that no operand names as its destination. -/
def Obligations.OnlyTheDestinationRegisterChanges : Prop :=
  ∀ (i : Instr) (s t : State) (r : Reg), exec i s = .next t → i.destination ≠ some r → t.reg r = s.reg r

/-- R28-R30, R32: each flag changes only by the instructions that own it. -/
def Obligations.FlagsChangeOnlyByTheirOwners : Prop :=
  ∀ (i : Instr) (s t : State), exec i s = .next t →
    (i.isCompare = false → t.flags.equal = s.flags.equal ∧ t.flags.notEqual = s.flags.notEqual ∧
      t.flags.greater = s.flags.greater ∧ t.flags.smaller = s.flags.smaller) ∧
    (i.writesOverflow = false → t.flags.overflow = s.flags.overflow) ∧
    (i ≠ .exit → t.flags.stop = s.flags.stop)

/-- R62, R21 of the heap: an instruction that does not store leaves every heap cell and the capacity alone. -/
def Obligations.OnlyStoringInstructionsChangeTheHeap : Prop :=
  ∀ (i : Instr) (s t : State), exec i s = .next t → i.mayStore = false → SameHeap s t

/-- R24, R145: an instruction that is no jump, takes no fault and does not wait leaves the pc at the next opcode. -/
def Obligations.PcEndsAtTheNextOpcode : Prop :=
  ∀ (i : Instr) (s t : State), exec i s = .next t → i.isJump = false → s.phase = .run → t.phase = .run →
    t.awaitingReply = false → t.pc = s.pc + BitVec.ofNat 32 i.op.length

/-- R67: the heap's capacity never shrinks but by reset; nor does the stack's (R70, R72). A step may raise either; what
the host does but reset leaves both as they are. -/
def Obligations.CapacitiesNeverShrink : Prop :=
  (∀ s t : State, step s = .next t → s.hcap ≤ t.hcap ∧ s.scap ≤ t.scap) ∧
  ∀ s : State, (s.start.hcap = s.hcap ∧ s.start.scap = s.scap) ∧
    (∀ bytes, (s.hostReply bytes).hcap = s.hcap ∧ (s.hostReply bytes).scap = s.scap) ∧
    ∀ img t, s.load img = .next t → t.hcap = s.hcap ∧ t.scap = s.scap

/-- R35, R36, R43, R61, R87: no step writes the image, the base pointer or the parameters, and only the header parse
writes the header size; so no store changes what is fetched later. -/
def Obligations.StepsNeverWriteTheImage : Prop :=
  ∀ s t : State, step s = .next t →
    t.image = s.image ∧ t.bp = s.bp ∧ t.params = s.params ∧
    (s.phase ≠ .header → t.hs = s.hs ∧ ∀ p, t.imgFetch p = s.imgFetch p)

/-! ## The invariant -/

/-- The invariant holds after reset, for every choice of the parameters that R8 admits and every image. -/
def Obligations.InvariantHoldsAtReset : Prop :=
  (∀ (p : Params) (image : List Byte), p.wellFormed = true → Inv (State.resetWith p image)) ∧ Inv State.reset

/-- Every step keeps the invariant: the heap's canonical form and capacity bounds (R40, R66), the stack's (R38, R69),
the consistency of the ordering flags (R260), the header size within the image (R36), the exclusive ends of a run
(R150), and that a request is out only at the `syscall` that sent it (R304). -/
def Obligations.EveryStepKeepsTheInvariant : Prop :=
  ∀ s t : State, Inv s → step s = .next t → Inv t

/-- What the host does keeps the invariant too. That a reset may also be applied to a running block is the model's
choice (notes/assumptions/21.md). -/
def Obligations.HostInputsKeepTheInvariant : Prop :=
  ∀ s : State, Inv s →
    Inv s.start ∧ Inv s.resetBlock ∧ (∀ bytes, Inv (s.hostReply bytes)) ∧ ∀ img t, s.load img = .next t → Inv t

/-! ## Hidden state -/

/-- R38, R41: the capacities are hidden: two states that differ in the capacities and their limits alone run an
instruction alike, unless one of them runs out. -/
def Obligations.CapacitiesAreHidden : Prop :=
  ∀ (i : Instr) (s t s' t' : State), SameButCapacities s t → s.HeapFits → t.HeapFits → s.StackFits → t.StackFits →
    exec i s = .next s' → exec i t = .next t' →
    s'.faultCause ≠ 6 → s'.faultCause ≠ 7 → t'.faultCause ≠ 6 → t'.faultCause ≠ 7 →
    SameButCapacities s' t' ∧ ∀ a, t'.memRead a = s'.memRead a

/-! ## The status port -/

/-- R16, R34, R35: the port shows registers, flag word, pc, base pointer and fault status while the block is halted,
and nothing before; bit 0 of the word is Equal, bit 5 Stop. -/
def Obligations.StatusPortShowsAHaltedBlock : Prop :=
  (∀ s : State, s.phase = .halted → s.statusPort = some ⟨s.regs, s.flags.word, s.pc, s.bp, s.faultCause, s.faultPc⟩) ∧
  (∀ s : State, s.phase ≠ .halted → s.statusPort = none) ∧
  ∀ f : Flags, f.word.getLsbD 0 = f.equal ∧ f.word.getLsbD 1 = f.notEqual ∧ f.word.getLsbD 2 = f.greater ∧
    f.word.getLsbD 3 = f.smaller ∧ f.word.getLsbD 4 = f.overflow ∧ f.word.getLsbD 5 = f.stop
end

