-- ==== Sys2Proof/Laws/State.lean ====
section
/-! SUPPORT. One lemma per field and update of the state, so that no later proof unfolds an update; the register
file's read-after-write laws. -/

namespace Sys2Proof.Machine

/-! ## setReg -/

@[simp] theorem State.setReg_pc (s : State) (r : Reg) (v : Word) : (s.setReg r v).pc = s.pc := rfl
@[simp] theorem State.setReg_flags (s : State) (r : Reg) (v : Word) : (s.setReg r v).flags = s.flags := rfl
@[simp] theorem State.setReg_bp (s : State) (r : Reg) (v : Word) : (s.setReg r v).bp = s.bp := rfl
@[simp] theorem State.setReg_hs (s : State) (r : Reg) (v : Word) : (s.setReg r v).hs = s.hs := rfl
@[simp] theorem State.setReg_stack (s : State) (r : Reg) (v : Word) : (s.setReg r v).stack = s.stack := rfl
@[simp] theorem State.setReg_scap (s : State) (r : Reg) (v : Word) : (s.setReg r v).scap = s.scap := rfl
@[simp] theorem State.setReg_heap (s : State) (r : Reg) (v : Word) : (s.setReg r v).heap = s.heap := rfl
@[simp] theorem State.setReg_hcap (s : State) (r : Reg) (v : Word) : (s.setReg r v).hcap = s.hcap := rfl
@[simp] theorem State.setReg_image (s : State) (r : Reg) (v : Word) : (s.setReg r v).image = s.image := rfl
@[simp] theorem State.setReg_phase (s : State) (r : Reg) (v : Word) : (s.setReg r v).phase = s.phase := rfl
@[simp] theorem State.setReg_faultCause (s : State) (r : Reg) (v : Word) : (s.setReg r v).faultCause = s.faultCause := rfl
@[simp] theorem State.setReg_faultPc (s : State) (r : Reg) (v : Word) : (s.setReg r v).faultPc = s.faultPc := rfl
@[simp] theorem State.setReg_params (s : State) (r : Reg) (v : Word) : (s.setReg r v).params = s.params := rfl
@[simp] theorem State.setReg_hostLog (s : State) (r : Reg) (v : Word) : (s.setReg r v).hostLog = s.hostLog := rfl
@[simp] theorem State.setReg_inbox (s : State) (r : Reg) (v : Word) : (s.setReg r v).inbox = s.inbox := rfl
@[simp] theorem State.setReg_awaitingReply (s : State) (r : Reg) (v : Word) : (s.setReg r v).awaitingReply = s.awaitingReply := rfl

/-! ## setOverflow -/

@[simp] theorem State.setOverflow_regs (s : State) (o : Option Bool) : (s.setOverflow o).regs = s.regs := by cases o <;> rfl
@[simp] theorem State.setOverflow_pc (s : State) (o : Option Bool) : (s.setOverflow o).pc = s.pc := by cases o <;> rfl
@[simp] theorem State.setOverflow_bp (s : State) (o : Option Bool) : (s.setOverflow o).bp = s.bp := by cases o <;> rfl
@[simp] theorem State.setOverflow_hs (s : State) (o : Option Bool) : (s.setOverflow o).hs = s.hs := by cases o <;> rfl
@[simp] theorem State.setOverflow_stack (s : State) (o : Option Bool) : (s.setOverflow o).stack = s.stack := by cases o <;> rfl
@[simp] theorem State.setOverflow_scap (s : State) (o : Option Bool) : (s.setOverflow o).scap = s.scap := by cases o <;> rfl
@[simp] theorem State.setOverflow_heap (s : State) (o : Option Bool) : (s.setOverflow o).heap = s.heap := by cases o <;> rfl
@[simp] theorem State.setOverflow_hcap (s : State) (o : Option Bool) : (s.setOverflow o).hcap = s.hcap := by cases o <;> rfl
@[simp] theorem State.setOverflow_image (s : State) (o : Option Bool) : (s.setOverflow o).image = s.image := by cases o <;> rfl
@[simp] theorem State.setOverflow_phase (s : State) (o : Option Bool) : (s.setOverflow o).phase = s.phase := by cases o <;> rfl
@[simp] theorem State.setOverflow_faultCause (s : State) (o : Option Bool) : (s.setOverflow o).faultCause = s.faultCause := by cases o <;> rfl
@[simp] theorem State.setOverflow_faultPc (s : State) (o : Option Bool) : (s.setOverflow o).faultPc = s.faultPc := by cases o <;> rfl
@[simp] theorem State.setOverflow_params (s : State) (o : Option Bool) : (s.setOverflow o).params = s.params := by cases o <;> rfl
@[simp] theorem State.setOverflow_hostLog (s : State) (o : Option Bool) : (s.setOverflow o).hostLog = s.hostLog := by cases o <;> rfl
@[simp] theorem State.setOverflow_inbox (s : State) (o : Option Bool) : (s.setOverflow o).inbox = s.inbox := by cases o <;> rfl
@[simp] theorem State.setOverflow_awaitingReply (s : State) (o : Option Bool) : (s.setOverflow o).awaitingReply = s.awaitingReply := by cases o <;> rfl

/-! ## compare -/

@[simp] theorem State.compare_regs (s : State) (a b : Word) : (s.compare a b).regs = s.regs := rfl
@[simp] theorem State.compare_pc (s : State) (a b : Word) : (s.compare a b).pc = s.pc := rfl
@[simp] theorem State.compare_flags (s : State) (a b : Word) : (s.compare a b).flags = s.flags.compare a b := rfl
@[simp] theorem State.compare_bp (s : State) (a b : Word) : (s.compare a b).bp = s.bp := rfl
@[simp] theorem State.compare_hs (s : State) (a b : Word) : (s.compare a b).hs = s.hs := rfl
@[simp] theorem State.compare_stack (s : State) (a b : Word) : (s.compare a b).stack = s.stack := rfl
@[simp] theorem State.compare_scap (s : State) (a b : Word) : (s.compare a b).scap = s.scap := rfl
@[simp] theorem State.compare_heap (s : State) (a b : Word) : (s.compare a b).heap = s.heap := rfl
@[simp] theorem State.compare_hcap (s : State) (a b : Word) : (s.compare a b).hcap = s.hcap := rfl
@[simp] theorem State.compare_image (s : State) (a b : Word) : (s.compare a b).image = s.image := rfl
@[simp] theorem State.compare_phase (s : State) (a b : Word) : (s.compare a b).phase = s.phase := rfl
@[simp] theorem State.compare_faultCause (s : State) (a b : Word) : (s.compare a b).faultCause = s.faultCause := rfl
@[simp] theorem State.compare_faultPc (s : State) (a b : Word) : (s.compare a b).faultPc = s.faultPc := rfl
@[simp] theorem State.compare_params (s : State) (a b : Word) : (s.compare a b).params = s.params := rfl
@[simp] theorem State.compare_hostLog (s : State) (a b : Word) : (s.compare a b).hostLog = s.hostLog := rfl
@[simp] theorem State.compare_inbox (s : State) (a b : Word) : (s.compare a b).inbox = s.inbox := rfl
@[simp] theorem State.compare_awaitingReply (s : State) (a b : Word) : (s.compare a b).awaitingReply = s.awaitingReply := rfl

/-! ## setStop -/

@[simp] theorem State.setStop_regs (s : State) : (s.setStop).regs = s.regs := rfl
@[simp] theorem State.setStop_pc (s : State) : (s.setStop).pc = s.pc := rfl
@[simp] theorem State.setStop_flags (s : State) : (s.setStop).flags = { s.flags with stop := true } := rfl
@[simp] theorem State.setStop_bp (s : State) : (s.setStop).bp = s.bp := rfl
@[simp] theorem State.setStop_hs (s : State) : (s.setStop).hs = s.hs := rfl
@[simp] theorem State.setStop_stack (s : State) : (s.setStop).stack = s.stack := rfl
@[simp] theorem State.setStop_scap (s : State) : (s.setStop).scap = s.scap := rfl
@[simp] theorem State.setStop_heap (s : State) : (s.setStop).heap = s.heap := rfl
@[simp] theorem State.setStop_hcap (s : State) : (s.setStop).hcap = s.hcap := rfl
@[simp] theorem State.setStop_image (s : State) : (s.setStop).image = s.image := rfl
@[simp] theorem State.setStop_phase (s : State) : (s.setStop).phase = s.phase := rfl
@[simp] theorem State.setStop_faultCause (s : State) : (s.setStop).faultCause = s.faultCause := rfl
@[simp] theorem State.setStop_faultPc (s : State) : (s.setStop).faultPc = s.faultPc := rfl
@[simp] theorem State.setStop_params (s : State) : (s.setStop).params = s.params := rfl
@[simp] theorem State.setStop_hostLog (s : State) : (s.setStop).hostLog = s.hostLog := rfl
@[simp] theorem State.setStop_inbox (s : State) : (s.setStop).inbox = s.inbox := rfl
@[simp] theorem State.setStop_awaitingReply (s : State) : (s.setStop).awaitingReply = s.awaitingReply := rfl

/-! ## jumpIf -/

@[simp] theorem State.jumpIf_regs (s : State) (c : Bool) (t : Word) : (s.jumpIf c t).regs = s.regs := by cases c <;> rfl
@[simp] theorem State.jumpIf_flags (s : State) (c : Bool) (t : Word) : (s.jumpIf c t).flags = s.flags := by cases c <;> rfl
@[simp] theorem State.jumpIf_bp (s : State) (c : Bool) (t : Word) : (s.jumpIf c t).bp = s.bp := by cases c <;> rfl
@[simp] theorem State.jumpIf_hs (s : State) (c : Bool) (t : Word) : (s.jumpIf c t).hs = s.hs := by cases c <;> rfl
@[simp] theorem State.jumpIf_stack (s : State) (c : Bool) (t : Word) : (s.jumpIf c t).stack = s.stack := by cases c <;> rfl
@[simp] theorem State.jumpIf_scap (s : State) (c : Bool) (t : Word) : (s.jumpIf c t).scap = s.scap := by cases c <;> rfl
@[simp] theorem State.jumpIf_heap (s : State) (c : Bool) (t : Word) : (s.jumpIf c t).heap = s.heap := by cases c <;> rfl
@[simp] theorem State.jumpIf_hcap (s : State) (c : Bool) (t : Word) : (s.jumpIf c t).hcap = s.hcap := by cases c <;> rfl
@[simp] theorem State.jumpIf_image (s : State) (c : Bool) (t : Word) : (s.jumpIf c t).image = s.image := by cases c <;> rfl
@[simp] theorem State.jumpIf_phase (s : State) (c : Bool) (t : Word) : (s.jumpIf c t).phase = s.phase := by cases c <;> rfl
@[simp] theorem State.jumpIf_faultCause (s : State) (c : Bool) (t : Word) : (s.jumpIf c t).faultCause = s.faultCause := by cases c <;> rfl
@[simp] theorem State.jumpIf_faultPc (s : State) (c : Bool) (t : Word) : (s.jumpIf c t).faultPc = s.faultPc := by cases c <;> rfl
@[simp] theorem State.jumpIf_params (s : State) (c : Bool) (t : Word) : (s.jumpIf c t).params = s.params := by cases c <;> rfl
@[simp] theorem State.jumpIf_hostLog (s : State) (c : Bool) (t : Word) : (s.jumpIf c t).hostLog = s.hostLog := by cases c <;> rfl
@[simp] theorem State.jumpIf_inbox (s : State) (c : Bool) (t : Word) : (s.jumpIf c t).inbox = s.inbox := by cases c <;> rfl
@[simp] theorem State.jumpIf_awaitingReply (s : State) (c : Bool) (t : Word) : (s.jumpIf c t).awaitingReply = s.awaitingReply := by cases c <;> rfl

/-! ## send -/

@[simp] theorem State.send_regs (s : State) (e : HostEvent) : (s.send e).regs = s.regs := rfl
@[simp] theorem State.send_pc (s : State) (e : HostEvent) : (s.send e).pc = s.pc := rfl
@[simp] theorem State.send_flags (s : State) (e : HostEvent) : (s.send e).flags = s.flags := rfl
@[simp] theorem State.send_bp (s : State) (e : HostEvent) : (s.send e).bp = s.bp := rfl
@[simp] theorem State.send_hs (s : State) (e : HostEvent) : (s.send e).hs = s.hs := rfl
@[simp] theorem State.send_stack (s : State) (e : HostEvent) : (s.send e).stack = s.stack := rfl
@[simp] theorem State.send_scap (s : State) (e : HostEvent) : (s.send e).scap = s.scap := rfl
@[simp] theorem State.send_heap (s : State) (e : HostEvent) : (s.send e).heap = s.heap := rfl
@[simp] theorem State.send_hcap (s : State) (e : HostEvent) : (s.send e).hcap = s.hcap := rfl
@[simp] theorem State.send_image (s : State) (e : HostEvent) : (s.send e).image = s.image := rfl
@[simp] theorem State.send_phase (s : State) (e : HostEvent) : (s.send e).phase = s.phase := rfl
@[simp] theorem State.send_faultCause (s : State) (e : HostEvent) : (s.send e).faultCause = s.faultCause := rfl
@[simp] theorem State.send_faultPc (s : State) (e : HostEvent) : (s.send e).faultPc = s.faultPc := rfl
@[simp] theorem State.send_params (s : State) (e : HostEvent) : (s.send e).params = s.params := rfl
@[simp] theorem State.send_hostLog (s : State) (e : HostEvent) : (s.send e).hostLog = s.hostLog ++ [e] := rfl
@[simp] theorem State.send_inbox (s : State) (e : HostEvent) : (s.send e).inbox = s.inbox := rfl
@[simp] theorem State.send_awaitingReply (s : State) (e : HostEvent) : (s.send e).awaitingReply = s.awaitingReply := rfl

/-! ## sendRead -/

@[simp] theorem State.sendRead_regs (s : State) : (s.sendRead).regs = s.regs := by unfold State.sendRead; split <;> rfl
@[simp] theorem State.sendRead_pc (s : State) : (s.sendRead).pc = s.pc := by unfold State.sendRead; split <;> rfl
@[simp] theorem State.sendRead_flags (s : State) : (s.sendRead).flags = s.flags := by unfold State.sendRead; split <;> rfl
@[simp] theorem State.sendRead_bp (s : State) : (s.sendRead).bp = s.bp := by unfold State.sendRead; split <;> rfl
@[simp] theorem State.sendRead_hs (s : State) : (s.sendRead).hs = s.hs := by unfold State.sendRead; split <;> rfl
@[simp] theorem State.sendRead_stack (s : State) : (s.sendRead).stack = s.stack := by unfold State.sendRead; split <;> rfl
@[simp] theorem State.sendRead_scap (s : State) : (s.sendRead).scap = s.scap := by unfold State.sendRead; split <;> rfl
@[simp] theorem State.sendRead_heap (s : State) : (s.sendRead).heap = s.heap := by unfold State.sendRead; split <;> rfl
@[simp] theorem State.sendRead_hcap (s : State) : (s.sendRead).hcap = s.hcap := by unfold State.sendRead; split <;> rfl
@[simp] theorem State.sendRead_image (s : State) : (s.sendRead).image = s.image := by unfold State.sendRead; split <;> rfl
@[simp] theorem State.sendRead_phase (s : State) : (s.sendRead).phase = s.phase := by unfold State.sendRead; split <;> rfl
@[simp] theorem State.sendRead_faultCause (s : State) : (s.sendRead).faultCause = s.faultCause := by unfold State.sendRead; split <;> rfl
@[simp] theorem State.sendRead_faultPc (s : State) : (s.sendRead).faultPc = s.faultPc := by unfold State.sendRead; split <;> rfl
@[simp] theorem State.sendRead_params (s : State) : (s.sendRead).params = s.params := by unfold State.sendRead; split <;> rfl
@[simp] theorem State.sendRead_inbox (s : State) : (s.sendRead).inbox = s.inbox := by unfold State.sendRead; split <;> rfl

/-! ## receive -/

@[simp] theorem State.receive_regs (s : State) (b : List Byte) (l : List (List Byte)) : (s.receive b l).regs = s.regs := rfl
@[simp] theorem State.receive_pc (s : State) (b : List Byte) (l : List (List Byte)) : (s.receive b l).pc = s.pc := rfl
@[simp] theorem State.receive_flags (s : State) (b : List Byte) (l : List (List Byte)) : (s.receive b l).flags = s.flags := rfl
@[simp] theorem State.receive_bp (s : State) (b : List Byte) (l : List (List Byte)) : (s.receive b l).bp = s.bp := rfl
@[simp] theorem State.receive_hs (s : State) (b : List Byte) (l : List (List Byte)) : (s.receive b l).hs = s.hs := rfl
@[simp] theorem State.receive_stack (s : State) (b : List Byte) (l : List (List Byte)) : (s.receive b l).stack = s.stack := rfl
@[simp] theorem State.receive_scap (s : State) (b : List Byte) (l : List (List Byte)) : (s.receive b l).scap = s.scap := rfl
@[simp] theorem State.receive_heap (s : State) (b : List Byte) (l : List (List Byte)) : (s.receive b l).heap = s.heap := rfl
@[simp] theorem State.receive_hcap (s : State) (b : List Byte) (l : List (List Byte)) : (s.receive b l).hcap = s.hcap := rfl
@[simp] theorem State.receive_image (s : State) (b : List Byte) (l : List (List Byte)) : (s.receive b l).image = s.image := rfl
@[simp] theorem State.receive_phase (s : State) (b : List Byte) (l : List (List Byte)) : (s.receive b l).phase = s.phase := rfl
@[simp] theorem State.receive_faultCause (s : State) (b : List Byte) (l : List (List Byte)) : (s.receive b l).faultCause = s.faultCause := rfl
@[simp] theorem State.receive_faultPc (s : State) (b : List Byte) (l : List (List Byte)) : (s.receive b l).faultPc = s.faultPc := rfl
@[simp] theorem State.receive_params (s : State) (b : List Byte) (l : List (List Byte)) : (s.receive b l).params = s.params := rfl
@[simp] theorem State.receive_hostLog (s : State) (b : List Byte) (l : List (List Byte)) : (s.receive b l).hostLog = s.hostLog ++ [.reply b] := rfl
@[simp] theorem State.receive_inbox (s : State) (b : List Byte) (l : List (List Byte)) : (s.receive b l).inbox = l := rfl
@[simp] theorem State.receive_awaitingReply (s : State) (b : List Byte) (l : List (List Byte)) : (s.receive b l).awaitingReply = false := rfl

/-! ## enterFault -/

@[simp] theorem State.enterFault_regs (s : State) (c : FaultCause) (p : Word) : (s.enterFault c p).regs = s.regs := rfl
@[simp] theorem State.enterFault_pc (s : State) (c : FaultCause) (p : Word) : (s.enterFault c p).pc = s.pc := rfl
@[simp] theorem State.enterFault_flags (s : State) (c : FaultCause) (p : Word) : (s.enterFault c p).flags = s.flags := rfl
@[simp] theorem State.enterFault_bp (s : State) (c : FaultCause) (p : Word) : (s.enterFault c p).bp = s.bp := rfl
@[simp] theorem State.enterFault_hs (s : State) (c : FaultCause) (p : Word) : (s.enterFault c p).hs = s.hs := rfl
@[simp] theorem State.enterFault_stack (s : State) (c : FaultCause) (p : Word) : (s.enterFault c p).stack = s.stack := rfl
@[simp] theorem State.enterFault_scap (s : State) (c : FaultCause) (p : Word) : (s.enterFault c p).scap = s.scap := rfl
@[simp] theorem State.enterFault_heap (s : State) (c : FaultCause) (p : Word) : (s.enterFault c p).heap = s.heap := rfl
@[simp] theorem State.enterFault_hcap (s : State) (c : FaultCause) (p : Word) : (s.enterFault c p).hcap = s.hcap := rfl
@[simp] theorem State.enterFault_image (s : State) (c : FaultCause) (p : Word) : (s.enterFault c p).image = s.image := rfl
@[simp] theorem State.enterFault_phase (s : State) (c : FaultCause) (p : Word) : (s.enterFault c p).phase = .halted := rfl
@[simp] theorem State.enterFault_faultCause (s : State) (c : FaultCause) (p : Word) : (s.enterFault c p).faultCause = c.code := rfl
@[simp] theorem State.enterFault_faultPc (s : State) (c : FaultCause) (p : Word) : (s.enterFault c p).faultPc = p := rfl
@[simp] theorem State.enterFault_params (s : State) (c : FaultCause) (p : Word) : (s.enterFault c p).params = s.params := rfl
@[simp] theorem State.enterFault_hostLog (s : State) (c : FaultCause) (p : Word) : (s.enterFault c p).hostLog = s.hostLog := rfl
@[simp] theorem State.enterFault_inbox (s : State) (c : FaultCause) (p : Word) : (s.enterFault c p).inbox = s.inbox := rfl
@[simp] theorem State.enterFault_awaitingReply (s : State) (c : FaultCause) (p : Word) : (s.enterFault c p).awaitingReply = s.awaitingReply := rfl

/-! ## clearStack -/

@[simp] theorem State.clearStack_regs (s : State) : (s.clearStack).regs = s.regs := rfl
@[simp] theorem State.clearStack_pc (s : State) : (s.clearStack).pc = s.pc := rfl
@[simp] theorem State.clearStack_flags (s : State) : (s.clearStack).flags = s.flags := rfl
@[simp] theorem State.clearStack_bp (s : State) : (s.clearStack).bp = s.bp := rfl
@[simp] theorem State.clearStack_hs (s : State) : (s.clearStack).hs = s.hs := rfl
@[simp] theorem State.clearStack_stack (s : State) : (s.clearStack).stack = [] := rfl
@[simp] theorem State.clearStack_scap (s : State) : (s.clearStack).scap = s.scap := rfl
@[simp] theorem State.clearStack_heap (s : State) : (s.clearStack).heap = s.heap := rfl
@[simp] theorem State.clearStack_hcap (s : State) : (s.clearStack).hcap = s.hcap := rfl
@[simp] theorem State.clearStack_image (s : State) : (s.clearStack).image = s.image := rfl
@[simp] theorem State.clearStack_phase (s : State) : (s.clearStack).phase = s.phase := rfl
@[simp] theorem State.clearStack_faultCause (s : State) : (s.clearStack).faultCause = s.faultCause := rfl
@[simp] theorem State.clearStack_faultPc (s : State) : (s.clearStack).faultPc = s.faultPc := rfl
@[simp] theorem State.clearStack_params (s : State) : (s.clearStack).params = s.params := rfl
@[simp] theorem State.clearStack_hostLog (s : State) : (s.clearStack).hostLog = s.hostLog := rfl
@[simp] theorem State.clearStack_inbox (s : State) : (s.clearStack).inbox = s.inbox := rfl
@[simp] theorem State.clearStack_awaitingReply (s : State) : (s.clearStack).awaitingReply = s.awaitingReply := rfl

@[simp] theorem State.jumpIf_pc (s : State) (c : Bool) (t : Word) :
    (s.jumpIf c t).pc = if c then t - 1#32 else s.pc := by cases c <;> rfl

@[simp] theorem State.sendRead_awaitingReply (s : State) : s.sendRead.awaitingReply = true := by
  unfold State.sendRead; split <;> simp_all

@[simp] theorem State.sendRead_hostLog (s : State) :
    s.sendRead.hostLog = if s.awaitingReply then s.hostLog else s.hostLog ++ [.read] := by
  unfold State.sendRead; split <;> rfl

@[simp] theorem State.setOverflow_flags (s : State) (o : Option Bool) :
    (s.setOverflow o).flags = { s.flags with overflow := o.getD s.flags.overflow } := by cases o <;> rfl

/-! ## Reading a register after an update -/

@[simp] theorem State.reg_setReg (s : State) (r q : Reg) (v : Word) :
    (s.setReg r v).reg q = if q = r then v else s.reg q := by cases r <;> cases q <;> rfl

/-- Registers are told apart by `regs` alone. -/
theorem State.reg_eq_of_regs (s t : State) (h : t.regs = s.regs) (r : Reg) : t.reg r = s.reg r := by
  cases r <;> simp [State.reg, h]

theorem State.regs_eq_of_reg (s t : State) (h : ∀ r, t.reg r = s.reg r) : t.regs = s.regs := by
  have ha := h .a
  have hb := h .b
  have hc := h .c
  have hd := h .d
  simp only [State.reg] at ha hb hc hd
  cases hs : s.regs
  cases ht : t.regs
  simp_all

@[simp] theorem State.reg_setOverflow (s : State) (o : Option Bool) (q : Reg) : (s.setOverflow o).reg q = s.reg q :=
  State.reg_eq_of_regs _ _ (by simp) q
@[simp] theorem State.reg_compare (s : State) (a b : Word) (q : Reg) : (s.compare a b).reg q = s.reg q :=
  State.reg_eq_of_regs _ _ (by simp) q
@[simp] theorem State.reg_setStop (s : State) (q : Reg) : (s.setStop).reg q = s.reg q :=
  State.reg_eq_of_regs _ _ (by simp) q
@[simp] theorem State.reg_jumpIf (s : State) (c : Bool) (t : Word) (q : Reg) : (s.jumpIf c t).reg q = s.reg q :=
  State.reg_eq_of_regs _ _ (by simp) q
@[simp] theorem State.reg_send (s : State) (e : HostEvent) (q : Reg) : (s.send e).reg q = s.reg q :=
  State.reg_eq_of_regs _ _ (by simp) q
@[simp] theorem State.reg_sendRead (s : State) (q : Reg) : (s.sendRead).reg q = s.reg q :=
  State.reg_eq_of_regs _ _ (by simp) q
@[simp] theorem State.reg_receive (s : State) (b : List Byte) (l : List (List Byte)) (q : Reg) : (s.receive b l).reg q = s.reg q :=
  State.reg_eq_of_regs _ _ (by simp) q
@[simp] theorem State.reg_enterFault (s : State) (c : FaultCause) (p : Word) (q : Reg) : (s.enterFault c p).reg q = s.reg q :=
  State.reg_eq_of_regs _ _ (by simp) q
@[simp] theorem State.reg_clearStack (s : State) (q : Reg) : (s.clearStack).reg q = s.reg q :=
  State.reg_eq_of_regs _ _ (by simp) q

/-! ## The flags after a comparison (R260) -/

@[simp] theorem Flags.compare_equal (f : Flags) (a b : Word) : (f.compare a b).equal = decide (a = b) := rfl
@[simp] theorem Flags.compare_notEqual (f : Flags) (a b : Word) : (f.compare a b).notEqual = decide (a ≠ b) := rfl
@[simp] theorem Flags.compare_greater (f : Flags) (a b : Word) : (f.compare a b).greater = decide (b.toNat < a.toNat) := rfl
@[simp] theorem Flags.compare_smaller (f : Flags) (a b : Word) : (f.compare a b).smaller = decide (a.toNat < b.toNat) := rfl
@[simp] theorem Flags.compare_overflow (f : Flags) (a b : Word) : (f.compare a b).overflow = f.overflow := rfl
@[simp] theorem Flags.compare_stop (f : Flags) (a b : Word) : (f.compare a b).stop = f.stop := rfl

/-! ## The reset state (R360) -/

@[simp] theorem State.resetWith_regs (p : Params) (image : List Byte) : (State.resetWith p image).regs = { a := 0#32, b := 0#32, c := 0#32, d := 0#32 } := rfl
@[simp] theorem State.resetWith_pc (p : Params) (image : List Byte) : (State.resetWith p image).pc = 0#32 := rfl
@[simp] theorem State.resetWith_bp (p : Params) (image : List Byte) : (State.resetWith p image).bp = 0#32 := rfl
@[simp] theorem State.resetWith_hs (p : Params) (image : List Byte) : (State.resetWith p image).hs = 4#32 := rfl
@[simp] theorem State.resetWith_stack (p : Params) (image : List Byte) : (State.resetWith p image).stack = [] := rfl
@[simp] theorem State.resetWith_scap (p : Params) (image : List Byte) : (State.resetWith p image).scap = p.stackInitCap := rfl
@[simp] theorem State.resetWith_heap (p : Params) (image : List Byte) : (State.resetWith p image).heap = [] := rfl
@[simp] theorem State.resetWith_hcap (p : Params) (image : List Byte) : (State.resetWith p image).hcap = p.heapInitCap := rfl
@[simp] theorem State.resetWith_image (p : Params) (image : List Byte) : (State.resetWith p image).image = image := rfl
@[simp] theorem State.resetWith_phase (p : Params) (image : List Byte) : (State.resetWith p image).phase = .reset := rfl
@[simp] theorem State.resetWith_faultCause (p : Params) (image : List Byte) : (State.resetWith p image).faultCause = 0#8 := rfl
@[simp] theorem State.resetWith_faultPc (p : Params) (image : List Byte) : (State.resetWith p image).faultPc = 0#32 := rfl
@[simp] theorem State.resetWith_params (p : Params) (image : List Byte) : (State.resetWith p image).params = p := rfl
@[simp] theorem State.resetWith_hostLog (p : Params) (image : List Byte) : (State.resetWith p image).hostLog = [] := rfl
@[simp] theorem State.resetWith_inbox (p : Params) (image : List Byte) : (State.resetWith p image).inbox = [] := rfl
@[simp] theorem State.resetWith_awaitingReply (p : Params) (image : List Byte) : (State.resetWith p image).awaitingReply = false := rfl

/-- A structural reading of a state whose listed parts are unchanged: reading a cell needs only the heap. -/
theorem State.memRead_congr {s t : State} (h : t.heap = s.heap) (hc : t.hcap = s.hcap) (a : Word) :
    t.memRead a = s.memRead a := by simp [State.memRead, h, hc]

end Sys2Proof.Machine
end

