-- ==== Sys2Proof/Laws/Memory.lean ====
section
/-! SUPPORT. The heap's list: read after write, the canonical form and the capacity bound are kept, equal contents
are equal lists; and what `MemRead` and `MemWrite` can do. -/

namespace Sys2Proof.Machine

@[simp] theorem Memory.read_nil (a : Nat) : Memory.read [] a = 0#32 := rfl

@[simp] theorem Memory.write_nil (a : Nat) (v : Word) :
    Memory.write [] a v = if v = 0#32 then [] else [(a, v)] := rfl

theorem Memory.wfFrom_cons {lo k : Nat} {v : Word} {m : Memory} :
    Memory.wfFrom lo ((k, v) :: m) = true ↔
      lo ≤ k ∧ k < 4294967296 ∧ v ≠ 0#32 ∧ Memory.wfFrom (k + 1) m = true := by
  simp [Memory.wfFrom, and_assoc]

theorem Memory.wfFrom_mono {m : Memory} {lo hi : Nat} (h : Memory.wfFrom hi m = true) (hle : lo ≤ hi) :
    Memory.wfFrom lo m = true := by
  cases m with
  | nil => rfl
  | cons e m =>
    obtain ⟨k, v⟩ := e
    rw [Memory.wfFrom_cons] at h ⊢
    exact ⟨hle.trans h.1, h.2⟩

/-- Below the first listed address everything reads 0. -/
theorem Memory.read_below {m : Memory} {lo a : Nat} (h : Memory.wfFrom lo m = true) (ha : a < lo) :
    Memory.read m a = 0#32 := by
  induction m generalizing lo with
  | nil => rfl
  | cons e m ih =>
    obtain ⟨k, v⟩ := e
    rw [Memory.wfFrom_cons] at h
    rw [Memory.read, if_neg (by omega)]
    exact ih h.2.2.2 (by omega)

theorem Memory.read_write_same {m : Memory} {lo : Nat} (h : Memory.wfFrom lo m = true) (a : Nat) (v : Word) :
    Memory.read (Memory.write m a v) a = v := by
  induction m generalizing lo with
  | nil => by_cases hv : v = 0#32 <;> simp [hv, Memory.read]
  | cons e m ih =>
    obtain ⟨k, w⟩ := e
    rw [Memory.wfFrom_cons] at h
    obtain ⟨-, -, -, hm⟩ := h
    simp only [Memory.write]
    rcases lt_trichotomy a k with hak | hak | hak
    · by_cases hv : v = 0#32
      · have hne : k ≠ a := by omega
        simp [hak, hv, Memory.read, hne, Memory.read_below hm (show a < k + 1 by omega)]
      · simp [hak, hv, Memory.read]
    · subst hak
      by_cases hv : v = 0#32
      · simp [hv, Memory.read_below hm (show a < a + 1 by omega)]
      · simp [hv, Memory.read]
    · have h1 : ¬ a < k := by omega
      have h2 : a ≠ k := by omega
      simp [h1, h2, Memory.read, Ne.symm h2, ih hm]

theorem Memory.read_write_other (m : Memory) {a b : Nat} (v : Word) (hab : b ≠ a) :
    Memory.read (Memory.write m a v) b = Memory.read m b := by
  induction m with
  | nil => by_cases hv : v = 0#32 <;> simp [hv, Memory.read, hab.symm]
  | cons e m ih =>
    obtain ⟨k, w⟩ := e
    simp only [Memory.write]
    split
    · split <;> simp [Memory.read, hab.symm]
    · split
      · rename_i _ h
        subst h
        split <;> simp [Memory.read, hab.symm]
      · simp only [Memory.read, ih]

theorem Memory.write_wfFrom {m : Memory} {lo a : Nat} (h : Memory.wfFrom lo m = true) (v : Word) (hlo : lo ≤ a)
    (ha : a < 4294967296) : Memory.wfFrom lo (Memory.write m a v) = true := by
  induction m generalizing lo with
  | nil =>
    by_cases hv : v = 0#32
    · simp [hv, Memory.wfFrom]
    · simp [hv, Memory.wfFrom, hlo, ha]
  | cons e m ih =>
    obtain ⟨k, w⟩ := e
    rw [Memory.wfFrom_cons] at h
    obtain ⟨hk, hk2, hw, hm⟩ := h
    simp only [Memory.write]
    split
    · split
      · exact Memory.wfFrom_cons.2 ⟨hk, hk2, hw, hm⟩
      · rename_i hak hv
        exact Memory.wfFrom_cons.2 ⟨hlo, ha, hv, Memory.wfFrom_cons.2 ⟨by omega, hk2, hw, hm⟩⟩
    · split
      · rename_i _ hak
        subst hak
        split
        · exact Memory.wfFrom_mono hm (by omega)
        · rename_i hv
          exact Memory.wfFrom_cons.2 ⟨hlo, ha, hv, hm⟩
      · exact Memory.wfFrom_cons.2 ⟨hk, hk2, hw, ih hm (by omega)⟩

/-- A write keeps the canonical form. -/
theorem Memory.write_wf {m : Memory} (h : Memory.wf m = true) (a v : Word) :
    Memory.wf (Memory.write m a.toNat v) = true :=
  Memory.write_wfFrom h v (Nat.zero_le _) (by simpa using a.isLt)

theorem Memory.within_iff {cap : Nat} {m : Memory} : Memory.within cap m = true ↔ ∀ e ∈ m, e.1 < cap := by
  simp [Memory.within]

theorem Memory.within_mono {cap cap' : Nat} {m : Memory} (h : Memory.within cap m = true) (hle : cap ≤ cap') :
    Memory.within cap' m = true := by
  rw [Memory.within_iff] at h ⊢
  exact fun e he => (h e he).trans_le hle

theorem Memory.mem_write {m : Memory} {a : Nat} {v : Word} {e : Nat × Word} (he : e ∈ Memory.write m a v) :
    e ∈ m ∨ e = (a, v) := by
  induction m with
  | nil => by_cases hv : v = 0#32 <;> simp_all
  | cons k m ih =>
    obtain ⟨k, w⟩ := k
    simp only [Memory.write] at he
    split at he
    · split at he <;> simp_all
      tauto
    · split at he
      · split at he <;> simp_all
        tauto
      · rcases List.mem_cons.1 he with h | h
        · exact .inl (h ▸ List.mem_cons_self)
        · exact (ih h).imp_left (List.mem_cons_of_mem _)

theorem Memory.write_within {cap : Nat} {m : Memory} (h : Memory.within cap m = true) {a : Nat} (v : Word)
    (ha : a < cap) : Memory.within cap (Memory.write m a v) = true := by
  rw [Memory.within_iff] at h ⊢
  intro e he
  rcases Memory.mem_write he with he | rfl
  · exact h e he
  · exact ha

theorem Memory.read_of_within {cap a : Nat} {m : Memory} (h : Memory.within cap m = true) (ha : cap ≤ a) :
    Memory.read m a = 0#32 := by
  rw [Memory.within_iff] at h
  induction m with
  | nil => rfl
  | cons e m ih =>
    obtain ⟨k, v⟩ := e
    have hk := h (k, v) (by simp)
    simp only at hk
    rw [Memory.read, if_neg (by omega)]
    exact ih fun e he => h e (by simp [he])

/-- Canonical lists that read alike are equal. -/
theorem Memory.ext_of_wf {m n : Memory} {lo : Nat} (hm : Memory.wfFrom lo m = true) (hn : Memory.wfFrom lo n = true)
    (h : ∀ a, Memory.read m a = Memory.read n a) : m = n := by
  induction m generalizing n lo with
  | nil =>
    cases n with
    | nil => rfl
    | cons e n =>
      obtain ⟨k, v⟩ := e
      rw [Memory.wfFrom_cons] at hn
      have := h k
      simp [Memory.read] at this
      exact absurd this.symm hn.2.2.1
  | cons e m ih =>
    obtain ⟨k, v⟩ := e
    rw [Memory.wfFrom_cons] at hm
    cases n with
    | nil =>
      have := h k
      simp [Memory.read] at this
      exact absurd this hm.2.2.1
    | cons f n =>
      obtain ⟨j, w⟩ := f
      rw [Memory.wfFrom_cons] at hn
      have hkj : k = j := by
        rcases lt_trichotomy k j with hlt | heq | hlt
        · have := h k
          rw [Memory.read, if_pos rfl, Memory.read, if_neg (by omega),
            Memory.read_below hn.2.2.2 (show k < j + 1 by omega)] at this
          exact absurd this hm.2.2.1
        · exact heq
        · have := h j
          rw [Memory.read, if_neg (by omega), Memory.read_below hm.2.2.2 (show j < k + 1 by omega), Memory.read,
            if_pos rfl] at this
          exact absurd this.symm hn.2.2.1
      subst hkj
      have hvw : v = w := by simpa [Memory.read] using h k
      subst hvw
      congr 1
      refine ih hm.2.2.2 hn.2.2.2 fun a => ?_
      by_cases ha : a = k
      · subst ha
        rw [Memory.read_below hm.2.2.2 (by omega), Memory.read_below hn.2.2.2 (by omega)]
      · have := h a
        rwa [Memory.read, if_neg (Ne.symm ha), Memory.read, if_neg (Ne.symm ha)] at this

/-! ## MemRead and MemWrite -/

/-- Within the invariant the capacity test of `MemRead` is redundant: a cell beyond the capacity is not listed. -/
theorem State.memRead_of_heapFits {s : State} (h : s.HeapFits) (a : Word) :
    s.memRead a = Memory.read s.heap a.toNat := by
  unfold State.memRead
  split
  · rename_i hc
    exact (Memory.read_of_within h hc).symm
  · rfl

/-- Everything a heap write can do: it raises exactly where the growth is past the limit, and otherwise only the list
and the capacity change. -/
theorem State.memWrite_eq (s : State) (a v : Word) :
    s.memWrite a v =
      if s.hcap ≤ a.toNat ∧ s.params.heapCapLimit < a.toNat + 1 then .error .heapExhausted
      else .ok { s with hcap := max s.hcap (a.toNat + 1), heap := Memory.write s.heap a.toNat v } := by
  unfold State.memWrite
  by_cases h : s.hcap ≤ a.toNat
  · by_cases hl : s.params.heapCapLimit < a.toNat + 1
    · simp [h, hl]
    · have : max s.hcap (a.toNat + 1) = a.toNat + 1 := by omega
      simp [h, hl, this]
  · have : max s.hcap (a.toNat + 1) = s.hcap := by omega
    simp [h, this]

theorem State.memWrite_ok {s : State} {a : Word} (h : s.CanStore a) (v : Word) :
    s.memWrite a v = .ok { s with hcap := max s.hcap (a.toNat + 1), heap := Memory.write s.heap a.toNat v } := by
  rw [State.memWrite_eq, if_neg]
  unfold State.CanStore at h
  omega

theorem State.memWrite_error {s : State} {a : Word} (h : ¬ s.CanStore a) (v : Word) :
    s.memWrite a v = .error .heapExhausted := by
  rw [State.memWrite_eq, if_pos]
  unfold State.CanStore at h
  omega

theorem State.memWrite_inv {s t : State} {a v : Word} (h : s.memWrite a v = .ok t) :
    s.CanStore a ∧ t = { s with hcap := max s.hcap (a.toNat + 1), heap := Memory.write s.heap a.toNat v } := by
  by_cases hc : s.CanStore a
  · rw [State.memWrite_ok hc] at h
    exact ⟨hc, (Except.ok.inj h).symm⟩
  · rw [State.memWrite_error hc] at h
    cases h

/-- The cell written reads back; every other cell reads as before (R63). -/
theorem State.memRead_write {s : State} (hw : Memory.wf s.heap = true) (hf : s.HeapFits) (a v b : Word) :
    State.memRead { s with hcap := max s.hcap (a.toNat + 1), heap := Memory.write s.heap a.toNat v } b =
      if b = a then v else s.memRead b := by
  have hf' : State.HeapFits
      { s with hcap := max s.hcap (a.toNat + 1), heap := Memory.write s.heap a.toNat v } :=
    Memory.write_within (Memory.within_mono hf (by simp)) v (by simp)
  rw [State.memRead_of_heapFits hf', State.memRead_of_heapFits hf]
  split
  · rename_i h
    subst h
    exact Memory.read_write_same hw _ _
  · rename_i h
    exact Memory.read_write_other _ _ fun he => h (BitVec.eq_of_toNat_eq he)

end Sys2Proof.Machine
end

