-- ==== Sys2Proof/Laws/Ops.lean ====
section
/-! SUPPORT. What each shared operation can do, said once: push, pop, peek, the operand forms, the runs of heap
cells, and the frame of an instruction. -/

namespace Sys2Proof.Machine

/-! ## The error monad -/

@[simp] theorem Except.ok_bind' {α β : Type} (a : α) (f : α → Except FaultCause β) :
    (Except.ok a >>= f) = f a := rfl

@[simp] theorem Except.error_bind' {α β : Type} (c : FaultCause) (f : α → Except FaultCause β) :
    ((Except.error c : Except FaultCause α) >>= f) = .error c := rfl

theorem Except.bind_eq_ok' {α β : Type} {x : Except FaultCause α} {f : α → Except FaultCause β} {b : β}
    (h : (x >>= f) = .ok b) : ∃ a, x = .ok a ∧ f a = .ok b := by
  cases x with
  | error c => cases h
  | ok a => exact ⟨a, rfl, h⟩

/-! ## Stack -/

theorem State.push_ok {s : State} (h : s.HasRoom) (v : Word) :
    s.push v = .ok { s with scap := s.pushedCap, stack := v :: s.stack } := by
  unfold State.push State.pushedCap
  by_cases hl : s.stack.length = s.scap
  · have := h hl
    rw [if_pos hl, if_neg (by unfold grownStackCap; omega), if_pos hl]
    rfl
  · rw [if_neg hl, if_neg hl]

theorem State.push_error {s : State} (h : ¬ s.HasRoom) (v : Word) : s.push v = .error .stackExhausted := by
  unfold State.HasRoom at h
  unfold State.push grownStackCap
  rw [if_pos (by omega), if_pos (by omega)]

/-- Everything a push can do. -/
theorem State.push_inv {s t : State} {v : Word} (h : s.push v = .ok t) :
    s.HasRoom ∧ t = { s with scap := s.pushedCap, stack := v :: s.stack } := by
  by_cases hr : s.HasRoom
  · rw [State.push_ok hr] at h
    exact ⟨hr, (Except.ok.inj h).symm⟩
  · rw [State.push_error hr] at h
    cases h

/-- Below the capacity a push only adds the value. -/
theorem State.push_of_ne {s : State} (h : s.stack.length ≠ s.scap) (v : Word) :
    s.push v = .ok { s with stack := v :: s.stack } := by
  unfold State.push
  rw [if_neg h]

theorem State.scap_le_pushedCap (s : State) : s.scap ≤ s.pushedCap := by
  unfold State.pushedCap
  split <;> omega

@[simp] theorem State.pop_nil {s : State} (h : s.stack = []) : s.pop = .error .stackUnderflow := by
  simp [State.pop, h]

@[simp] theorem State.pop_cons {s : State} {v : Word} {rest : List Word} (h : s.stack = v :: rest) :
    s.pop = .ok (v, { s with stack := rest }) := by
  simp [State.pop, h]

/-- Everything a pop can do. -/
theorem State.pop_inv {s t : State} {v : Word} (h : s.pop = .ok (v, t)) :
    s.stack = v :: t.stack ∧ t = { s with stack := t.stack } := by
  cases hs : s.stack with
  | nil => rw [State.pop_nil hs] at h; cases h
  | cons w rest =>
    rw [State.pop_cons hs] at h
    simp only [Except.ok.injEq, Prod.mk.injEq] at h
    obtain ⟨rfl, rfl⟩ := h
    exact ⟨rfl, rfl⟩

@[simp] theorem State.peek_nil {s : State} (h : s.stack = []) : s.peek = .error .stackUnderflow := by
  simp [State.peek, h]

@[simp] theorem State.peek_cons {s : State} {v : Word} {rest : List Word} (h : s.stack = v :: rest) :
    s.peek = .ok v := by
  simp [State.peek, h]

theorem State.peek_inv {s : State} {v : Word} (h : s.peek = .ok v) : ∃ rest, s.stack = v :: rest := by
  cases hs : s.stack with
  | nil => rw [State.peek_nil hs] at h; cases h
  | cons w rest =>
    rw [State.peek_cons hs] at h
    exact ⟨rest, by rw [Except.ok.inj h]⟩

/-! ## Operand forms -/

theorem State.regForm_ok {s : State} {f : Word → Word → Except FaultCause AluOut} {ra rb : Reg} {out : AluOut}
    (h : f (s.reg ra) (s.reg rb) = .ok out) :
    s.regForm f ra rb = .ok ((s.setOverflow out.overflow).setReg ra out.value) := by
  simp only [State.regForm, h]
  rfl

theorem State.regForm_error {s : State} {f : Word → Word → Except FaultCause AluOut} {ra rb : Reg} {c : FaultCause}
    (h : f (s.reg ra) (s.reg rb) = .error c) : s.regForm f ra rb = .error c := by
  simp only [State.regForm, h]
  rfl

/-- Everything a register form can do. -/
theorem State.regForm_inv {s t : State} {f : Word → Word → Except FaultCause AluOut} {ra rb : Reg}
    (h : s.regForm f ra rb = .ok t) :
    ∃ out, f (s.reg ra) (s.reg rb) = .ok out ∧ t = (s.setOverflow out.overflow).setReg ra out.value := by
  obtain ⟨out, ho, h⟩ := Except.bind_eq_ok' h
  exact ⟨out, ho, (Except.ok.inj h).symm⟩

theorem State.stackForm_ok {s : State} {f : Word → Word → Except FaultCause AluOut} {a b : Word}
    {rest : List Word} {out : AluOut} (hs : s.stack = b :: a :: rest) (hf : s.StackFits) (h : f a b = .ok out) :
    s.stackForm f = .ok { s.setOverflow out.overflow with stack := out.value :: rest } := by
  have hlen : rest.length ≠ s.scap := by
    unfold State.StackFits at hf
    rw [hs] at hf
    simp at hf
    omega
  simp only [State.stackForm, State.pop_cons hs, Except.ok_bind',
    State.pop_cons (s := { s with stack := a :: rest }) rfl, h]
  rw [State.push_of_ne (by simpa using hlen)]
  cases out.overflow <;> rfl

theorem State.stackForm_error {s : State} {f : Word → Word → Except FaultCause AluOut} {a b : Word}
    {rest : List Word} {c : FaultCause} (hs : s.stack = b :: a :: rest) (h : f a b = .error c) :
    s.stackForm f = .error c := by
  simp only [State.stackForm, State.pop_cons hs, Except.ok_bind',
    State.pop_cons (s := { s with stack := a :: rest }) rfl, h, Except.error_bind']

theorem State.stackForm_short {s : State} (f : Word → Word → Except FaultCause AluOut) (h : s.stack.length < 2) :
    s.stackForm f = .error .stackUnderflow := by
  cases hs : s.stack with
  | nil => simp only [State.stackForm, State.pop_nil hs, Except.error_bind']
  | cons b rest =>
    cases rest with
    | nil =>
      simp only [State.stackForm, State.pop_cons hs, Except.ok_bind',
        State.pop_nil (s := { s with stack := [] }) rfl, Except.error_bind']
    | cons a rest => rw [hs] at h; simp at h

/-- Everything a stack form can do. -/
theorem State.stackForm_inv {s t : State} {f : Word → Word → Except FaultCause AluOut} (h : s.stackForm f = .ok t) :
    ∃ b a rest out, s.stack = b :: a :: rest ∧ f a b = .ok out ∧
      t = { s.setOverflow out.overflow with stack := out.value :: rest, scap := t.scap } ∧ s.scap ≤ t.scap ∧
      (s.StackFits → t.scap = s.scap) := by
  obtain ⟨⟨b, s1⟩, h1, h⟩ := Except.bind_eq_ok' h
  obtain ⟨⟨a, s2⟩, h2, h⟩ := Except.bind_eq_ok' h
  obtain ⟨out, h3, h⟩ := Except.bind_eq_ok' h
  obtain ⟨hs1, e1⟩ := State.pop_inv h1
  obtain ⟨hs2, e2⟩ := State.pop_inv h2
  obtain ⟨hr, ht⟩ := State.push_inv h
  have hcap : s2.scap = s.scap := by rw [e2, e1]
  have key : t.scap = (s2.setOverflow out.overflow).pushedCap := by rw [ht]
  refine ⟨b, a, s2.stack, out, by rw [hs1, hs2], h3, ?_, ?_, ?_⟩
  · rw [ht]
    cases out.overflow <;> simp only [State.setOverflow] <;> rw [e2, e1]
  · rw [key, ← hcap, show s2.scap = (s2.setOverflow out.overflow).scap by simp]
    exact State.scap_le_pushedCap _
  · intro hf
    rw [key]
    unfold State.pushedCap
    unfold State.StackFits at hf
    rw [hs1, hs2] at hf
    simp at hf
    rw [if_neg (by simp [hcap]; omega)]
    simp [hcap]

/-! ## Runs of heap cells -/

/-- Stores change the heap alone, and its capacity never falls. -/
theorem State.storeBytes_inv {s t : State} {a : Word} {bs : List Byte} (h : s.storeBytes a bs = .ok t) :
    t = { s with heap := t.heap, hcap := t.hcap } ∧ s.hcap ≤ t.hcap := by
  induction bs generalizing s a with
  | nil => cases h; exact ⟨rfl, le_refl _⟩
  | cons b bs ih =>
    obtain ⟨u, hu, h⟩ := Except.bind_eq_ok' h
    obtain ⟨-, rfl⟩ := State.memWrite_inv hu
    obtain ⟨e, hle⟩ := ih h
    refine ⟨by rw [e], ?_⟩
    simp at hle
    omega

/-- Stores keep the canonical form and the capacity bounds. -/
theorem State.storeBytes_heap {s t : State} {a : Word} {bs : List Byte} (h : s.storeBytes a bs = .ok t)
    (hw : Memory.wf s.heap = true) (hf : s.HeapFits) (hl : s.hcap ≤ s.params.heapCapLimit) :
    Memory.wf t.heap = true ∧ t.HeapFits ∧ t.hcap ≤ s.params.heapCapLimit := by
  induction bs generalizing s a with
  | nil => cases h; exact ⟨hw, hf, hl⟩
  | cons b bs ih =>
    obtain ⟨u, hu, h⟩ := Except.bind_eq_ok' h
    obtain ⟨hc, rfl⟩ := State.memWrite_inv hu
    unfold State.CanStore at hc
    have := ih h (Memory.write_wf hw _ _)
      (Memory.write_within (Memory.within_mono hf (by simp)) _ (by simp)) (by simp only; omega)
    exact this

theorem State.storeBytes_error {s : State} {a : Word} {bs : List Byte} {c : FaultCause}
    (h : s.storeBytes a bs = .error c) : c = .heapExhausted := by
  induction bs generalizing s a with
  | nil => cases h
  | cons b bs ih =>
    simp only [State.storeBytes] at h
    by_cases hc : s.CanStore a
    · rw [State.memWrite_ok hc] at h
      exact ih h
    · rw [State.memWrite_error hc] at h
      cases h
      rfl

/-! ## The frame of an instruction -/

theorem State.complete_ok {s t : State} {n : Nat} {body : State → Except FaultCause State}
    (h : body { s with pc := s.pc + BitVec.ofNat 32 n } = .ok t) :
    s.complete n body = .next { t with pc := t.pc + 1#32 } := by
  simp only [State.complete, h]

theorem State.complete_error {s : State} {n : Nat} {body : State → Except FaultCause State} {c : FaultCause}
    (h : body { s with pc := s.pc + BitVec.ofNat 32 n } = .error c) :
    s.complete n body = .next (s.enterFault c s.pc) := by
  simp only [State.complete, h]

/-- Everything the frame can do: the body's state with the pc moved on, or the fault entered from the state before. -/
theorem State.complete_inv {s t : State} {n : Nat} {body : State → Except FaultCause State}
    (h : s.complete n body = .next t) :
    (∃ u, body { s with pc := s.pc + BitVec.ofNat 32 n } = .ok u ∧ t = { u with pc := u.pc + 1#32 }) ∨
      (∃ c, body { s with pc := s.pc + BitVec.ofNat 32 n } = .error c ∧ t = s.enterFault c s.pc) := by
  unfold State.complete at h
  split at h
  · rename_i u hu
    exact .inl ⟨u, hu, by injection h with h; exact h.symm⟩
  · rename_i c hc
    exact .inr ⟨c, hc, by injection h with h; exact h.symm⟩

/-- The frame always answers a next state. -/
theorem State.complete_next (s : State) (n : Nat) (body : State → Except FaultCause State) :
    ∃ t, s.complete n body = .next t := by
  unfold State.complete
  split <;> exact ⟨_, rfl⟩

end Sys2Proof.Machine
end

