-- ==== Sys2Proof/Laws/Boot.lean ====
section
/-! SUPPORT. What the header scan can do. -/

namespace Sys2Proof.Machine

/-- The scan changes the heap, the header size and the run status, and nothing else. -/
theorem State.scanHeader_inv {s t : State} {i : Nat} {bs : List Byte} (h : s.scanHeader i bs = .ok t) :
    t = { s with heap := t.heap, hcap := t.hcap, hs := t.hs, phase := .run } ∧ s.hcap ≤ t.hcap := by
  fun_induction State.scanHeader s i bs with
  | case1 s i b0 b1 b2 b3 rest hm => cases h; exact ⟨rfl, le_refl _⟩
  | case2 => cases h
  | case3 s i b0 b1 b2 b3 rest hm u hu ih =>
    obtain ⟨-, rfl⟩ := State.memWrite_inv hu
    obtain ⟨e, hle⟩ := ih h
    refine ⟨by rw [e], ?_⟩
    simp only at hle
    omega
  | case4 => cases h

/-- The scan keeps the heap's canonical form and the capacity bounds. -/
theorem State.scanHeader_heap {s t : State} {i : Nat} {bs : List Byte} (h : s.scanHeader i bs = .ok t)
    (hw : Memory.wf s.heap = true) (hf : s.HeapFits) (hl : s.hcap ≤ s.params.heapCapLimit) :
    Memory.wf t.heap = true ∧ t.HeapFits ∧ t.hcap ≤ s.params.heapCapLimit := by
  fun_induction State.scanHeader s i bs with
  | case1 s i b0 b1 b2 b3 rest hm => cases h; exact ⟨hw, hf, hl⟩
  | case2 => cases h
  | case3 s i b0 b1 b2 b3 rest hm u hu ih =>
    obtain ⟨hc, rfl⟩ := State.memWrite_inv hu
    unfold State.CanStore at hc
    exact ih h (Memory.write_wf hw _ _) (Memory.write_within (Memory.within_mono hf (by simp)) _ (by simp))
      (by simp only; omega)
  | case4 => cases h

/-- A successful scan leaves the header size inside the image. -/
theorem State.scanHeader_hs {s t : State} {i : Nat} {bs : List Byte} (h : s.scanHeader i bs = .ok t)
    (hL : i + bs.length ≤ 4294967295) : 4 ≤ t.hs.toNat ∧ t.hs.toNat ≤ i + bs.length := by
  fun_induction State.scanHeader s i bs with
  | case1 s i b0 b1 b2 b3 rest hm =>
    cases h
    simp only [List.length_cons] at hL ⊢
    rw [BitVec.toNat_ofNat, Nat.mod_eq_of_lt (by omega)]
    omega
  | case2 => cases h
  | case3 s i b0 b1 b2 b3 rest hm u hu ih =>
    simp only [List.length_cons] at hL ih ⊢
    have := ih h (by omega)
    omega
  | case4 => cases h

/-- A failed scan is a malformed header or a heap past its limit. -/
theorem State.scanHeader_error {s : State} {i : Nat} {bs : List Byte} {c : FaultCause}
    (h : s.scanHeader i bs = .error c) : c = .malformedHeader ∨ c = .heapExhausted := by
  fun_induction State.scanHeader s i bs with
  | case1 => cases h
  | case2 s i b0 b1 b2 b3 rest hm c' hc =>
    cases h
    by_cases hs : s.CanStore (BitVec.ofNat 32 i)
    · rw [State.memWrite_ok hs] at hc; cases hc
    · rw [State.memWrite_error hs] at hc; cases hc; exact .inr rfl
  | case3 s i b0 b1 b2 b3 rest hm u hu ih => exact ih h
  | case4 => cases h; exact .inl rfl

end Sys2Proof.Machine
end

