-- ==== Sys2Proof/Laws/Decode.lean ====
section
/-! SUPPORT. The operand codecs and the opcode map: what the decoder's pieces answer. -/

namespace Sys2Proof

@[simp] theorem Reg.ofByte_toByte (r : Reg) : Reg.ofByte r.toByte = some r := by cases r <;> rfl

theorem Reg.toByte_of_ofByte {b : Byte} {r : Reg} (h : Reg.ofByte b = some r) : r.toByte = b := by
  unfold Reg.ofByte at h
  split at h
  · rename_i e; cases h; exact e.symm
  · split at h
    · rename_i e; cases h; exact e.symm
    · split at h
      · rename_i e; cases h; exact e.symm
      · split at h
        · rename_i e; cases h; exact e.symm
        · cases h

/-- Exactly the bytes 4-255 name no register (R102). -/
theorem Reg.ofByte_eq_none {b : Byte} : Reg.ofByte b = none ↔ regByteValid b = false := by
  have : ∀ b : Byte, Reg.ofByte b = none ↔ regByteValid b = false := by decide
  exact this b

/-- Splitting a word into bytes and joining them gives the word back (R103). -/
theorem litOfBytes_extract (w : Word) :
    litOfBytes (w.extractLsb' 24 8) (w.extractLsb' 16 8) (w.extractLsb' 8 8) (w.extractLsb' 0 8) = w := by
  apply BitVec.eq_of_getLsbD_eq
  intro i hi
  interval_cases i <;>
    simp [litOfBytes]

theorem litBytes_litOfBytes (b0 b1 b2 b3 : Byte) : litBytes (litOfBytes b0 b1 b2 b3) = [b0, b1, b2, b3] := by
  simp only [litBytes, List.cons.injEq, and_true]
  refine ⟨?_, ?_, ?_, ?_⟩ <;>
  · apply BitVec.eq_of_getLsbD_eq
    intro i hi
    interval_cases i <;>
      simp [litOfBytes, BitVec.getLsbD_of_ge]

@[simp] theorem litBytes_length (w : Word) : (litBytes w).length = 4 := rfl

theorem Op.length_le_max (op : Op) : op.length ≤ maxLength := by cases op <;> decide

/-! ## Operand readers -/

@[simp] theorem withReg_toByte (r : Reg) (bs : List Byte) (k : Reg → List Byte → Decoded) :
    withReg (r.toByte :: bs) k = k r bs := by simp [withReg]

@[simp] theorem withLit_litBytes (w : Word) (bs : List Byte) (k : Word → List Byte → Decoded) :
    withLit (litBytes w ++ bs) k = k w bs := by
  simp [withLit, litBytes, litOfBytes_extract]

/-- Everything reading a register operand can lead to. -/
theorem withReg_inv {bs : List Byte} {k : Reg → List Byte → Decoded} {d : Decoded} (h : withReg bs k = d) :
    (bs = [] ∧ d = .outOfBounds) ∨ (∃ b rest, bs = b :: rest ∧ Reg.ofByte b = none ∧ d = .illegalRegister) ∨
      (∃ r rest, bs = r.toByte :: rest ∧ k r rest = d) := by
  unfold withReg at h
  split at h
  · exact .inl ⟨rfl, h.symm⟩
  · rename_i b rest
    split at h
    · rename_i hb
      exact .inr (.inl ⟨b, rest, rfl, hb, h.symm⟩)
    · rename_i r hr
      exact .inr (.inr ⟨r, rest, by rw [Reg.toByte_of_ofByte hr], h⟩)

/-- Everything reading a literal can lead to. -/
theorem withLit_inv {bs : List Byte} {k : Word → List Byte → Decoded} {d : Decoded} (h : withLit bs k = d) :
    (bs.length < 4 ∧ d = .outOfBounds) ∨ (∃ w rest, bs = litBytes w ++ rest ∧ k w rest = d) := by
  unfold withLit at h
  split at h
  · rename_i b0 b1 b2 b3 rest
    exact .inr ⟨litOfBytes b0 b1 b2 b3, rest, by simp [litBytes_litOfBytes], h⟩
  · rename_i hne
    refine .inl ⟨?_, h.symm⟩
    rcases bs with _ | ⟨b0, _ | ⟨b1, _ | ⟨b2, _ | ⟨b3, rest⟩⟩⟩⟩ <;> simp
    exact absurd rfl (hne b0 b1 b2 b3 rest)

/-- Operands decode to an instruction of the operation they were read for. -/
theorem decodeOperands_op {op : Op} {bs rest : List Byte} {i : Instr} (h : decodeOperands op bs = .instr i rest) :
    i.op = op := by
  unfold decodeOperands withReg withLit at h
  cases op <;> simp only at h <;> (try split at h) <;> (try split at h) <;> (try split at h) <;> (try split at h) <;>
    first
      | (cases h; rfl)
      | cases h

/-! ## The opcode map of R108 -/

theorem find_opcode (op : Op) : defaultOpcodeMap.find op.opcode = some op := by cases op <;> rfl

theorem opcode_of_find {b : Byte} {op : Op} (h : defaultOpcodeMap.find b = some op) : op.opcode = b := by
  have key : ∀ b : Byte, ∀ op ∈ defaultOpcodeMap.find b, op.opcode = b := by decide +kernel
  exact key b op h

theorem find_byteFor {m : OpcodeMap} {op : Op} {b : Byte} (h : m.byteFor op = some b) : m.find b = some op := by
  unfold OpcodeMap.byteFor at h
  obtain ⟨e, he, rfl⟩ := Option.map_eq_some_iff.1 h
  have := List.find?_some he
  simp at this
  exact this.2

theorem byteFor_of_offers {m : OpcodeMap} {op : Op} (h : m.offers op = true) : ∃ b, m.byteFor op = some b := by
  unfold OpcodeMap.byteFor
  have : ((List.find? (fun e => e.2 == op && OpcodeMap.find m e.1 == some op) m).isSome) = true := by
    rw [List.find?_isSome]
    unfold OpcodeMap.offers at h
    obtain ⟨e, he, hp⟩ := List.any_eq_true.1 h
    exact ⟨e, he, hp⟩
  obtain ⟨e, he⟩ := Option.isSome_iff_exists.1 this
  exact ⟨e.1, by rw [he]; rfl⟩

end Sys2Proof
end

