-- ==== Sys2Proof/Laws/Fetch.lean ====
section
/-! SUPPORT. The window of bytes the decoder reads: it is a piece of the image, and its bytes are the fetches. -/

namespace Sys2Proof.Machine

/-- A fetch inside the image, where the address does not wrap. -/
theorem State.imgFetch_eq_drop (s : State) (p : Word) :
    s.imgFetch p = (s.image.drop (p.toNat + s.hs.toNat)).head? := by
  simp [State.imgFetch, List.head?_drop]

/-- The window is the image from the pc's offset on: in an image of admitted length the window ends before an
address could wrap. -/
theorem State.fetchBytes_eq_take (s : State) (n : Nat) (p : Word) (h : imageLengthOk s.image.length = true) :
    s.fetchBytes n p = (s.image.drop (p.toNat + s.hs.toNat)).take n := by
  have hL : s.image.length ≤ 4294967295 := by simpa [imageLengthOk] using h
  induction n generalizing p with
  | zero => simp [State.fetchBytes]
  | succ n ih =>
    unfold State.fetchBytes
    rw [State.imgFetch_eq_drop]
    cases hd : s.image.drop (p.toNat + s.hs.toNat) with
    | nil => simp
    | cons b rest =>
      simp only [List.head?_cons, List.take_succ_cons, List.cons.injEq, true_and]
      have hlt : p.toNat + s.hs.toNat < s.image.length := by
        by_contra hge
        rw [List.drop_eq_nil_of_le (by omega)] at hd
        cases hd
      have hp : (p + 1#32).toNat = p.toNat + 1 := by
        rw [BitVec.toNat_add]
        simp
        omega
      rw [ih (p + 1#32), hp, show p.toNat + 1 + s.hs.toNat = (p.toNat + s.hs.toNat) + 1 by omega,
        ← List.drop_drop, hd]
      rfl

/-- The first byte of the window is the opcode fetch. -/
theorem State.fetchBytes_head (s : State) (n : Nat) (p : Word) :
    (s.fetchBytes (n + 1) p).head? = s.imgFetch p := by
  unfold State.fetchBytes
  split <;> simp_all

end Sys2Proof.Machine
end

