-- ==== Sys2Proof/Laws/Exec.lean ====
section
/-! SUPPORT. What `exec` can do, said once: every instruction but `syscall` is the frame around a body, and what a
body leaves alone is listed field by field; `syscall` has its five cases. -/

namespace Sys2Proof.Machine

/-- The pseudocode body of an instruction, as its meaning hands it to `State.complete`. -/
def bodyOf (i : Instr) (s : State) : Except FaultCause State :=
  match i with
  | .exit => .ok s.setStop
  | .pushLit l => s.push l
  | .pushReg r => s.push (s.reg r)
  | .pushHeap l => s.push (s.memRead l)
  | .popReg r => do
      let (v, s) ← s.pop
      return s.setReg r v
  | .popHeap l => do
      let (v, s) ← s.pop
      s.memWrite l v
  | .dup => do
      let v ← s.peek
      s.push v
  | .movLitReg rd l => .ok (s.setReg rd l)
  | .movLitHeap ad l => s.memWrite ad l
  | .movHeapReg rd as => .ok (s.setReg rd (s.memRead as))
  | .movRegHeap ad rs => s.memWrite ad (s.reg rs)
  | .movRegReg rd rs => .ok (s.setReg rd (s.reg rs))
  | .movHeapHeap ad as => s.memWrite ad (s.memRead as)
  | .mathAddReg ra rb => s.regForm aluAdd ra rb
  | .mathSubReg ra rb => s.regForm aluSub ra rb
  | .mathMulReg ra rb => s.regForm aluMul ra rb
  | .mathDivReg ra rb => s.regForm aluDiv ra rb
  | .mathAddStack => s.stackForm aluAdd
  | .mathSubStack => s.stackForm aluSub
  | .mathMulStack => s.stackForm aluMul
  | .mathDivStack => s.stackForm aluDiv
  | .bitNotReg r => .ok (s.setReg r (aluNot (s.reg r)))
  | .bitAndReg ra rb => s.regForm aluAnd ra rb
  | .bitOrReg ra rb => s.regForm aluOr ra rb
  | .bitXorReg ra rb => s.regForm aluXor ra rb
  | .bitNotStack => do
      let (a, s) ← s.pop
      s.push (aluNot a)
  | .bitAndStack => s.stackForm aluAnd
  | .bitOrStack => s.stackForm aluOr
  | .bitXorStack => s.stackForm aluXor
  | .cmpRegReg ra rb => .ok (s.compare (s.reg ra) (s.reg rb))
  | .cmpRegLit ra l => .ok (s.compare (s.reg ra) l)
  | .cmpStackLit l => do
      let a ← s.peek
      return s.compare a l
  | .jmp t => .ok (s.jumpIf true t)
  | .jmpEq t => .ok (s.jumpIf s.flags.equal t)
  | .jmpNe t => .ok (s.jumpIf s.flags.notEqual t)
  | .jmpGt t => .ok (s.jumpIf s.flags.greater t)
  | .jmpSm t => .ok (s.jumpIf s.flags.smaller t)
  | .jmpOv t => .ok (s.jumpIf s.flags.overflow t)
  | .syscall => .ok s

/-- Every meaning but that of `syscall` is the frame around its body. -/
theorem exec_eq_complete {i : Instr} (h : i ≠ .syscall) (s : State) :
    exec i s = s.complete i.op.operandLength (bodyOf i) := by
  cases i <;> first | rfl | exact absurd rfl h

/-- What no body writes, and the capacities, which no body lowers. -/
structure BodyFrame (s u : State) : Prop where
  control : SameControl s u
  port : SamePort s u
  hcap : s.hcap ≤ u.hcap
  scap : s.scap ≤ u.scap

theorem BodyFrame.of_memWrite {s u : State} {a v : Word} (h : s.memWrite a v = .ok u) : BodyFrame s u := by
  obtain ⟨-, rfl⟩ := State.memWrite_inv h
  exact ⟨by simp [SameControl], by simp [SamePort], by simp, le_refl _⟩

theorem BodyFrame.of_push {s u : State} {v : Word} (h : s.push v = .ok u) : BodyFrame s u := by
  obtain ⟨-, rfl⟩ := State.push_inv h
  exact ⟨by simp [SameControl], by simp [SamePort], le_refl _, State.scap_le_pushedCap s⟩

theorem BodyFrame.of_pop {s u : State} {v : Word} (h : s.pop = .ok (v, u)) : BodyFrame s u := by
  obtain ⟨-, e⟩ := State.pop_inv h
  rw [e]
  exact ⟨by simp [SameControl], by simp [SamePort], le_refl _, le_refl _⟩

theorem BodyFrame.of_regForm {s u : State} {f : Word → Word → Except FaultCause AluOut} {ra rb : Reg}
    (h : s.regForm f ra rb = .ok u) : BodyFrame s u := by
  obtain ⟨out, -, rfl⟩ := State.regForm_inv h
  exact ⟨by simp [SameControl], by simp [SamePort], by simp, by simp⟩

theorem BodyFrame.of_stackForm {s u : State} {f : Word → Word → Except FaultCause AluOut}
    (h : s.stackForm f = .ok u) : BodyFrame s u := by
  obtain ⟨b, a, rest, out, -, -, e, hc, -⟩ := State.stackForm_inv h
  rw [e]
  exact ⟨by simp [SameControl], by simp [SamePort], by simp, hc⟩

theorem BodyFrame.trans {s u v : State} (h : BodyFrame s u) (k : BodyFrame u v) : BodyFrame s v := by
  obtain ⟨⟨a1, a2, a3, a4, a5, a6, a7⟩, ⟨b1, b2, b3⟩, c, d⟩ := h
  obtain ⟨⟨a1', a2', a3', a4', a5', a6', a7'⟩, ⟨b1', b2', b3'⟩, c', d'⟩ := k
  exact ⟨⟨a1'.trans a1, a2'.trans a2, a3'.trans a3, a4'.trans a4, a5'.trans a5, a6'.trans a6, a7'.trans a7⟩,
    ⟨b1'.trans b1, b2'.trans b2, b3'.trans b3⟩, c.trans c', d.trans d'⟩

/-- No body writes the control fields or the port, or lowers a capacity. -/
theorem bodyOf_frame {i : Instr} {s u : State} (h : bodyOf i s = .ok u) : BodyFrame s u := by
  cases i with
  | exit => cases h; exact ⟨by simp [SameControl], by simp [SamePort], by simp, by simp⟩
  | pushLit l => exact .of_push h
  | pushReg r => exact .of_push h
  | pushHeap l => exact .of_push h
  | popReg r =>
    obtain ⟨⟨v, w⟩, hp, h⟩ := Except.bind_eq_ok' h
    cases h
    exact (BodyFrame.of_pop hp).trans ⟨by simp [SameControl], by simp [SamePort], by simp, by simp⟩
  | popHeap l =>
    obtain ⟨⟨v, w⟩, hp, h⟩ := Except.bind_eq_ok' h
    exact (BodyFrame.of_pop hp).trans (.of_memWrite h)
  | dup =>
    obtain ⟨v, -, h⟩ := Except.bind_eq_ok' h
    exact .of_push h
  | movLitReg rd l => cases h; exact ⟨by simp [SameControl], by simp [SamePort], by simp, by simp⟩
  | movLitHeap ad l => exact .of_memWrite h
  | movHeapReg rd as => cases h; exact ⟨by simp [SameControl], by simp [SamePort], by simp, by simp⟩
  | movRegHeap ad rs => exact .of_memWrite h
  | movRegReg rd rs => cases h; exact ⟨by simp [SameControl], by simp [SamePort], by simp, by simp⟩
  | movHeapHeap ad as => exact .of_memWrite h
  | mathAddReg ra rb => exact .of_regForm h
  | mathSubReg ra rb => exact .of_regForm h
  | mathMulReg ra rb => exact .of_regForm h
  | mathDivReg ra rb => exact .of_regForm h
  | mathAddStack => exact .of_stackForm h
  | mathSubStack => exact .of_stackForm h
  | mathMulStack => exact .of_stackForm h
  | mathDivStack => exact .of_stackForm h
  | bitNotReg r => cases h; exact ⟨by simp [SameControl], by simp [SamePort], by simp, by simp⟩
  | bitAndReg ra rb => exact .of_regForm h
  | bitOrReg ra rb => exact .of_regForm h
  | bitXorReg ra rb => exact .of_regForm h
  | bitNotStack =>
    obtain ⟨⟨v, w⟩, hp, h⟩ := Except.bind_eq_ok' h
    exact (BodyFrame.of_pop hp).trans (.of_push h)
  | bitAndStack => exact .of_stackForm h
  | bitOrStack => exact .of_stackForm h
  | bitXorStack => exact .of_stackForm h
  | cmpRegReg ra rb => cases h; exact ⟨by simp [SameControl], by simp [SamePort], by simp, by simp⟩
  | cmpRegLit ra l => cases h; exact ⟨by simp [SameControl], by simp [SamePort], by simp, by simp⟩
  | cmpStackLit l =>
    obtain ⟨v, -, h⟩ := Except.bind_eq_ok' h
    cases h
    exact ⟨by simp [SameControl], by simp [SamePort], by simp, by simp⟩
  | jmp t => cases h; exact ⟨by simp [SameControl], by simp [SamePort], by simp, by simp⟩
  | jmpEq t => cases h; exact ⟨by simp [SameControl], by simp [SamePort], by simp, by simp⟩
  | jmpNe t => cases h; exact ⟨by simp [SameControl], by simp [SamePort], by simp, by simp⟩
  | jmpGt t => cases h; exact ⟨by simp [SameControl], by simp [SamePort], by simp, by simp⟩
  | jmpSm t => cases h; exact ⟨by simp [SameControl], by simp [SamePort], by simp, by simp⟩
  | jmpOv t => cases h; exact ⟨by simp [SameControl], by simp [SamePort], by simp, by simp⟩
  | syscall => cases h; exact ⟨by simp [SameControl], by simp [SamePort], le_refl _, le_refl _⟩

/-- What an instruction other than `syscall` can do: its body's state with the pc moved on, or a fault entered from
the state before. -/
theorem exec_inv {i : Instr} (hi : i ≠ .syscall) {s t : State} (h : exec i s = .next t) :
    (∃ u, bodyOf i { s with pc := s.pc + BitVec.ofNat 32 i.op.operandLength } = .ok u ∧
      t = { u with pc := u.pc + 1#32 }) ∨ ∃ c, t = s.enterFault c s.pc := by
  rw [exec_eq_complete hi] at h
  rcases State.complete_inv h with ⟨u, hu, e⟩ | ⟨c, -, e⟩
  · exact .inl ⟨u, hu, e⟩
  · exact .inr ⟨c, e⟩

/-- The state in which a read request has its reply (R303, R304). -/
def State.answered (s : State) (bytes : List Byte) (later : List (List Byte)) : State :=
  s.sendRead.receive bytes later

/-- The five things a `syscall` can do: write, wait, read, fail in a read, or send at most one request. -/
theorem execSyscall_inv {s t : State} (h : exec .syscall s = .next t) :
    (s.reg .a = 1#32 ∧ s.inbox = [] ∧ t = s.sendRead) ∨
    (s.reg .a = 1#32 ∧ ∃ bytes later u, s.inbox = bytes :: later ∧
      (s.answered bytes later).storeBytes (s.reg .b) bytes = .ok u ∧ t = { u with pc := u.pc + 1#32 }) ∨
    (s.reg .a = 1#32 ∧ ∃ bytes later, s.inbox = bytes :: later ∧
      (s.answered bytes later).storeBytes (s.reg .b) bytes = .error .heapExhausted ∧
      t = (s.answered bytes later).enterFault .heapExhausted s.pc) ∨
    (s.reg .a ≠ 1#32 ∧ ∃ e, t = { s with hostLog := s.hostLog ++ [e], pc := s.pc + 1#32 }) ∨
    (s.reg .a ≠ 1#32 ∧ t = { s with pc := s.pc + 1#32 }) := by
  have pc0 : ∀ s : State, ({ s with pc := s.pc + BitVec.ofNat 32 Op.syscall.operandLength } : State) = s := by
    intro s
    have : s.pc + BitVec.ofNat 32 Op.syscall.operandLength = s.pc := BitVec.add_zero _
    rw [this]
  have pc1 : s.pc + BitVec.ofNat 32 Op.syscall.operandLength = s.pc := BitVec.add_zero _
  change execSyscall s = _ at h
  unfold execSyscall at h
  split at h
  · rename_i h0
    refine .inr (.inr (.inr (.inl ⟨by rw [h0]; decide, ?_⟩)))
    simp only [State.syscallWrite, State.complete, pc0] at h
    injection h with h
    exact ⟨_, h.symm⟩
  · split at h
    · rename_i h1
      unfold State.syscallRead at h
      split at h
      · rename_i hb
        injection h with h
        exact .inl ⟨h1, hb, h.symm⟩
      · rename_i bytes later hb
        simp only [State.complete, pc0] at h
        split at h
        · rename_i u hu
          injection h with h
          exact .inr (.inl ⟨h1, bytes, later, u, hb, by simpa [State.answered] using hu, h.symm⟩)
        · rename_i c hc
          injection h with h
          obtain rfl := State.storeBytes_error hc
          exact .inr (.inr (.inl ⟨h1, bytes, later, hb, by simpa [State.answered] using hc, by
            rw [← h]; simp [State.answered]⟩))
    · rename_i h1
      split at h
      · simp only [State.syscallClear, State.complete, pc0] at h
        injection h with h
        exact .inr (.inr (.inr (.inl ⟨h1, _, h.symm⟩)))
      · split at h
        · simp only [State.syscallPrint, State.complete, pc0] at h
          injection h with h
          exact .inr (.inr (.inr (.inl ⟨h1, _, h.symm⟩)))
        · simp only [State.complete, pc1] at h
          injection h with h
          exact .inr (.inr (.inr (.inr ⟨h1, h.symm⟩)))

/-- Every instruction answers a next state. -/
theorem exec_next (i : Instr) (s : State) : ∃ t, exec i s = .next t := by
  by_cases h : i = .syscall
  · subst h
    change ∃ t, execSyscall s = .next t
    unfold execSyscall State.syscallWrite State.syscallRead State.syscallClear State.syscallPrint
    repeat' split
    all_goals first | exact State.complete_next _ _ _ | exact ⟨_, rfl⟩
  · rw [exec_eq_complete h]
    exact State.complete_next _ _ _

end Sys2Proof.Machine
end

