-- ==== Sys2Proof/Laws/HostPort.lean ====
section
/-! SUPPORT. What each operation of the host can do, said once: start, load and reply change one field each. -/

namespace Sys2Proof.Machine

/-- A start writes the phase alone (R362). -/
theorem State.start_eq (s : State) :
    s.start = { s with phase := if s.phase = .reset then .header else s.phase } := by
  obtain ⟨⟩ := s
  rename_i phase _ _ _ _ _ _
  cases phase <;> rfl

/-- A load that is accepted writes the image alone, and only while no run is on (R14, R368). -/
theorem State.load_inv {s t : State} {image : List Byte} (h : s.load image = .next t) :
    (s.phase = .reset ∨ s.phase = .halted) ∧ imageLengthOk image.length = true ∧ t = { s with image := image } := by
  unfold State.load at h
  split at h
  · cases h
  · cases h
  all_goals
    rename_i hp
    split at h
    · rename_i hl
      cases h
      exact ⟨by simp [hp], hl, rfl⟩
    · cases h

@[simp] theorem State.start_regs (s : State) : s.start.regs = s.regs := by rw [State.start_eq]
@[simp] theorem State.start_pc (s : State) : s.start.pc = s.pc := by rw [State.start_eq]
@[simp] theorem State.start_flags (s : State) : s.start.flags = s.flags := by rw [State.start_eq]
@[simp] theorem State.start_stack (s : State) : s.start.stack = s.stack := by rw [State.start_eq]
@[simp] theorem State.start_scap (s : State) : s.start.scap = s.scap := by rw [State.start_eq]
@[simp] theorem State.start_heap (s : State) : s.start.heap = s.heap := by rw [State.start_eq]
@[simp] theorem State.start_hcap (s : State) : s.start.hcap = s.hcap := by rw [State.start_eq]
@[simp] theorem State.start_image (s : State) : s.start.image = s.image := by rw [State.start_eq]
@[simp] theorem State.start_params (s : State) : s.start.params = s.params := by rw [State.start_eq]

@[simp] theorem State.hostReply_inbox (s : State) (b : List Byte) : (s.hostReply b).inbox = s.inbox ++ [b] := rfl
@[simp] theorem State.hostReply_phase (s : State) (b : List Byte) : (s.hostReply b).phase = s.phase := rfl
@[simp] theorem State.hostReply_scap (s : State) (b : List Byte) : (s.hostReply b).scap = s.scap := rfl
@[simp] theorem State.hostReply_heap (s : State) (b : List Byte) : (s.hostReply b).heap = s.heap := rfl
@[simp] theorem State.hostReply_hcap (s : State) (b : List Byte) : (s.hostReply b).hcap = s.hcap := rfl
@[simp] theorem State.hostReply_hostLog (s : State) (b : List Byte) : (s.hostReply b).hostLog = s.hostLog := rfl

end Sys2Proof.Machine
end

