-- ==== Sys2Proof/Laws/PerInstr.lean ====
section
/-! SUPPORT. Statements made instruction by instruction: the family `EncodedLength` (30_encoding R104, R106). -/

namespace Sys2Proof.Laws

/-- An encoding starts with the opcode of R108 and is as long as its format says, whatever its operands. -/
def EncodedLength.Statement (i : Instr) : Prop :=
  (encode i).head? = some i.op.opcode ∧ (encode i).length = i.op.length ∧ i.op.length ≤ maxLength

theorem EncodedLength.exit : EncodedLength.Statement (.exit) := by
  refine ⟨rfl, rfl, Op.length_le_max _⟩

theorem EncodedLength.pushLit (l : Word) : EncodedLength.Statement (.pushLit l) := by
  refine ⟨rfl, rfl, Op.length_le_max _⟩

theorem EncodedLength.pushReg (r : Reg) : EncodedLength.Statement (.pushReg r) := by
  refine ⟨rfl, rfl, Op.length_le_max _⟩

theorem EncodedLength.pushHeap (l : Word) : EncodedLength.Statement (.pushHeap l) := by
  refine ⟨rfl, rfl, Op.length_le_max _⟩

theorem EncodedLength.popReg (r : Reg) : EncodedLength.Statement (.popReg r) := by
  refine ⟨rfl, rfl, Op.length_le_max _⟩

theorem EncodedLength.popHeap (l : Word) : EncodedLength.Statement (.popHeap l) := by
  refine ⟨rfl, rfl, Op.length_le_max _⟩

theorem EncodedLength.dup : EncodedLength.Statement (.dup) := by
  refine ⟨rfl, rfl, Op.length_le_max _⟩

theorem EncodedLength.movLitReg (rd : Reg) (l : Word) : EncodedLength.Statement (.movLitReg rd l) := by
  refine ⟨rfl, rfl, Op.length_le_max _⟩

theorem EncodedLength.movLitHeap (ad : Word) (l : Word) : EncodedLength.Statement (.movLitHeap ad l) := by
  refine ⟨rfl, rfl, Op.length_le_max _⟩

theorem EncodedLength.movHeapReg (rd : Reg) (as : Word) : EncodedLength.Statement (.movHeapReg rd as) := by
  refine ⟨rfl, rfl, Op.length_le_max _⟩

theorem EncodedLength.movRegHeap (ad : Word) (rs : Reg) : EncodedLength.Statement (.movRegHeap ad rs) := by
  refine ⟨rfl, rfl, Op.length_le_max _⟩

theorem EncodedLength.movRegReg (rd : Reg) (rs : Reg) : EncodedLength.Statement (.movRegReg rd rs) := by
  refine ⟨rfl, rfl, Op.length_le_max _⟩

theorem EncodedLength.movHeapHeap (ad : Word) (as : Word) : EncodedLength.Statement (.movHeapHeap ad as) := by
  refine ⟨rfl, rfl, Op.length_le_max _⟩

theorem EncodedLength.mathAddReg (ra : Reg) (rb : Reg) : EncodedLength.Statement (.mathAddReg ra rb) := by
  refine ⟨rfl, rfl, Op.length_le_max _⟩

theorem EncodedLength.mathSubReg (ra : Reg) (rb : Reg) : EncodedLength.Statement (.mathSubReg ra rb) := by
  refine ⟨rfl, rfl, Op.length_le_max _⟩

theorem EncodedLength.mathMulReg (ra : Reg) (rb : Reg) : EncodedLength.Statement (.mathMulReg ra rb) := by
  refine ⟨rfl, rfl, Op.length_le_max _⟩

theorem EncodedLength.mathDivReg (ra : Reg) (rb : Reg) : EncodedLength.Statement (.mathDivReg ra rb) := by
  refine ⟨rfl, rfl, Op.length_le_max _⟩

theorem EncodedLength.mathAddStack : EncodedLength.Statement (.mathAddStack) := by
  refine ⟨rfl, rfl, Op.length_le_max _⟩

theorem EncodedLength.mathSubStack : EncodedLength.Statement (.mathSubStack) := by
  refine ⟨rfl, rfl, Op.length_le_max _⟩

theorem EncodedLength.mathMulStack : EncodedLength.Statement (.mathMulStack) := by
  refine ⟨rfl, rfl, Op.length_le_max _⟩

theorem EncodedLength.mathDivStack : EncodedLength.Statement (.mathDivStack) := by
  refine ⟨rfl, rfl, Op.length_le_max _⟩

theorem EncodedLength.bitNotReg (r : Reg) : EncodedLength.Statement (.bitNotReg r) := by
  refine ⟨rfl, rfl, Op.length_le_max _⟩

theorem EncodedLength.bitAndReg (ra : Reg) (rb : Reg) : EncodedLength.Statement (.bitAndReg ra rb) := by
  refine ⟨rfl, rfl, Op.length_le_max _⟩

theorem EncodedLength.bitOrReg (ra : Reg) (rb : Reg) : EncodedLength.Statement (.bitOrReg ra rb) := by
  refine ⟨rfl, rfl, Op.length_le_max _⟩

theorem EncodedLength.bitXorReg (ra : Reg) (rb : Reg) : EncodedLength.Statement (.bitXorReg ra rb) := by
  refine ⟨rfl, rfl, Op.length_le_max _⟩

theorem EncodedLength.bitNotStack : EncodedLength.Statement (.bitNotStack) := by
  refine ⟨rfl, rfl, Op.length_le_max _⟩

theorem EncodedLength.bitAndStack : EncodedLength.Statement (.bitAndStack) := by
  refine ⟨rfl, rfl, Op.length_le_max _⟩

theorem EncodedLength.bitOrStack : EncodedLength.Statement (.bitOrStack) := by
  refine ⟨rfl, rfl, Op.length_le_max _⟩

theorem EncodedLength.bitXorStack : EncodedLength.Statement (.bitXorStack) := by
  refine ⟨rfl, rfl, Op.length_le_max _⟩

theorem EncodedLength.cmpRegReg (ra : Reg) (rb : Reg) : EncodedLength.Statement (.cmpRegReg ra rb) := by
  refine ⟨rfl, rfl, Op.length_le_max _⟩

theorem EncodedLength.cmpRegLit (ra : Reg) (l : Word) : EncodedLength.Statement (.cmpRegLit ra l) := by
  refine ⟨rfl, rfl, Op.length_le_max _⟩

theorem EncodedLength.cmpStackLit (l : Word) : EncodedLength.Statement (.cmpStackLit l) := by
  refine ⟨rfl, rfl, Op.length_le_max _⟩

theorem EncodedLength.jmp (t : Word) : EncodedLength.Statement (.jmp t) := by
  refine ⟨rfl, rfl, Op.length_le_max _⟩

theorem EncodedLength.jmpEq (t : Word) : EncodedLength.Statement (.jmpEq t) := by
  refine ⟨rfl, rfl, Op.length_le_max _⟩

theorem EncodedLength.jmpNe (t : Word) : EncodedLength.Statement (.jmpNe t) := by
  refine ⟨rfl, rfl, Op.length_le_max _⟩

theorem EncodedLength.jmpGt (t : Word) : EncodedLength.Statement (.jmpGt t) := by
  refine ⟨rfl, rfl, Op.length_le_max _⟩

theorem EncodedLength.jmpSm (t : Word) : EncodedLength.Statement (.jmpSm t) := by
  refine ⟨rfl, rfl, Op.length_le_max _⟩

theorem EncodedLength.jmpOv (t : Word) : EncodedLength.Statement (.jmpOv t) := by
  refine ⟨rfl, rfl, Op.length_le_max _⟩

theorem EncodedLength.syscall : EncodedLength.Statement (.syscall) := by
  refine ⟨rfl, rfl, Op.length_le_max _⟩

end Sys2Proof.Laws
end

