-- ==== Sys2Proof/Tests/Slice0.lean ====
section
/-! SUPPORT. The model's own tests. Expected results come from spec/: encodings from 41_stack to 47_syscall, values
from 95_test_vectors (S, V and P numbers), traps from 60_exceptions. The `witness_` theorems show states and operands
that meet all hypotheses of a statement of Certificates/Slice0/Obligations.lean, clause by clause where it has several,
boundary values among them. -/

namespace Sys2Proof.Tests

open Sys2Proof Sys2Proof.Machine

/-! ## Helpers -/

/-- The next state, where there is one. -/
def after (o : Host.Outcome State Fault Refusal) : Option State :=
  match o with
  | .next s => some s
  | _ => none

/-- The fault code, its pc and the run status after an outcome. -/
def fault (o : Host.Outcome State Fault Refusal) : Option (BitVec 8 × Word × Phase) :=
  (after o).map fun s => (s.faultCause, s.faultPc, s.phase)

/-- A running block whose image is an empty header and these bytes. -/
def prog (bytes : List Byte) : State :=
  { State.resetWith resetParams ([0x1D, 0x1D, 0x1D, 0x1D] ++ bytes) with phase := .run }

/-- Registers A to D set. -/
def regs (a b c d : Word) : State := { prog [] with regs := ⟨a, b, c, d⟩ }

/-- A stack, bottom first as the spec writes it, with some room. -/
def stack (bottomFirst : List Word) : State := { prog [] with stack := bottomFirst.reverse, scap := 8 }

/-- A heap, with its capacity. -/
def heap (cells : Memory) (cap : Nat) : State := { prog [] with heap := cells, hcap := cap }

/-- A heap limit. -/
def limited (s : State) (initCap limit : Nat) : State :=
  { s with hcap := initCap, params := { s.params with heapInitCap := initCap, heapCapLimit := limit } }

/-- A stack with capacity and limit. -/
def smallStack (vs : List Word) (cap limit : Nat) : State :=
  { prog [] with stack := vs, scap := cap, params := { resetParams with stackInitCap := 0, stackCapLimit := limit } }

/-! ## WellFormed refuses -/

theorem test_register_byte_four_refused : regByteValid 0x04 = false ∧ regByteValid 0x03 = true := by decide
theorem test_instruction_without_opcode_refused :
    (Instr.dup).wellFormed [(0x15, .exit)] = false ∧ (Instr.dup).wellFormed [(0x15, .dup)] = true := by decide
theorem test_instruction_behind_a_duplicate_refused :
    (Instr.dup).wellFormed [(0x15, .exit), (0x15, .dup)] = false := by decide
theorem test_heap_limit_below_capacity_refused :
    Params.wellFormed { resetParams with heapInitCap := 2, heapCapLimit := 1 } = false := by decide
theorem test_stack_limit_below_capacity_refused :
    Params.wellFormed { resetParams with stackInitCap := 2, stackCapLimit := 1 } = false := by decide
theorem test_image_length_refused : imageLengthOk 4294967296 = false ∧ imageLengthOk 4294967295 = true := by decide
theorem test_image_without_sentinel_refused :
    imageWellFormed [0x1D, 0x1D, 0x1D] = false ∧ imageWellFormed [0x01, 0x1D, 0x1D, 0x1D] = false := by decide
theorem test_image_with_sentinel_accepted : imageWellFormed [0x00, 0x1D, 0x1D, 0x1D, 0x1D, 0x01] = true := by decide

/-! ## Decoding, every instruction from a word written out -/

theorem test_decode_exit : decode defaultOpcodeMap [0x01, 0xAB] = .instr .exit [0xAB] := by decide
theorem test_decode_pushLit :
    decode defaultOpcodeMap [0x10, 0x12, 0x34, 0x56, 0x78, 0xAB] = .instr (.pushLit 0x12345678) [0xAB] := by decide
theorem test_decode_pushReg : decode defaultOpcodeMap [0x11, 0x03, 0xAB] = .instr (.pushReg .d) [0xAB] := by decide
theorem test_decode_pushHeap :
    decode defaultOpcodeMap [0x12, 0x12, 0x34, 0x56, 0x78, 0xAB] = .instr (.pushHeap 0x12345678) [0xAB] := by decide
theorem test_decode_popReg : decode defaultOpcodeMap [0x13, 0x02, 0xAB] = .instr (.popReg .c) [0xAB] := by decide
theorem test_decode_popHeap :
    decode defaultOpcodeMap [0x14, 0x12, 0x34, 0x56, 0x78, 0xAB] = .instr (.popHeap 0x12345678) [0xAB] := by decide
theorem test_decode_dup : decode defaultOpcodeMap [0x15, 0xAB] = .instr .dup [0xAB] := by decide
theorem test_decode_movLitReg :
    decode defaultOpcodeMap [0x20, 0x03, 0x12, 0x34, 0x56, 0x78, 0xAB] = .instr
      (.movLitReg .d 0x12345678) [0xAB] := by decide
theorem test_decode_movLitHeap :
    decode defaultOpcodeMap [0x21, 0x12, 0x34, 0x56, 0x78, 0x9A, 0xBC, 0xDE, 0xF0, 0xAB] = .instr
      (.movLitHeap 0x12345678 0x9ABCDEF0) [0xAB] := by decide
theorem test_decode_movHeapReg :
    decode defaultOpcodeMap [0x22, 0x01, 0x12, 0x34, 0x56, 0x78, 0xAB] = .instr
      (.movHeapReg .b 0x12345678) [0xAB] := by decide
theorem test_decode_movRegHeap :
    decode defaultOpcodeMap [0x23, 0x12, 0x34, 0x56, 0x78, 0x02, 0xAB] = .instr
      (.movRegHeap 0x12345678 .c) [0xAB] := by decide
theorem test_decode_movRegReg :
    decode defaultOpcodeMap [0x24, 0x00, 0x01, 0xAB] = .instr (.movRegReg .a .b) [0xAB] := by decide
theorem test_decode_movHeapHeap :
    decode defaultOpcodeMap [0x25, 0x12, 0x34, 0x56, 0x78, 0x9A, 0xBC, 0xDE, 0xF0, 0xAB] = .instr
      (.movHeapHeap 0x12345678 0x9ABCDEF0) [0xAB] := by decide
theorem test_decode_mathAddReg :
    decode defaultOpcodeMap [0x30, 0x00, 0x02, 0xAB] = .instr (.mathAddReg .a .c) [0xAB] := by decide
theorem test_decode_mathSubReg :
    decode defaultOpcodeMap [0x31, 0x02, 0x01, 0xAB] = .instr (.mathSubReg .c .b) [0xAB] := by decide
theorem test_decode_mathMulReg :
    decode defaultOpcodeMap [0x32, 0x03, 0x00, 0xAB] = .instr (.mathMulReg .d .a) [0xAB] := by decide
theorem test_decode_mathDivReg :
    decode defaultOpcodeMap [0x33, 0x01, 0x03, 0xAB] = .instr (.mathDivReg .b .d) [0xAB] := by decide
theorem test_decode_mathAddStack : decode defaultOpcodeMap [0x34, 0xAB] = .instr .mathAddStack [0xAB] := by decide
theorem test_decode_mathSubStack : decode defaultOpcodeMap [0x35, 0xAB] = .instr .mathSubStack [0xAB] := by decide
theorem test_decode_mathMulStack : decode defaultOpcodeMap [0x36, 0xAB] = .instr .mathMulStack [0xAB] := by decide
theorem test_decode_mathDivStack : decode defaultOpcodeMap [0x37, 0xAB] = .instr .mathDivStack [0xAB] := by decide
theorem test_decode_bitNotReg :
    decode defaultOpcodeMap [0x40, 0x03, 0xAB] = .instr (.bitNotReg .d) [0xAB] := by decide
theorem test_decode_bitAndReg :
    decode defaultOpcodeMap [0x41, 0x00, 0x01, 0xAB] = .instr (.bitAndReg .a .b) [0xAB] := by decide
theorem test_decode_bitOrReg :
    decode defaultOpcodeMap [0x42, 0x01, 0x02, 0xAB] = .instr (.bitOrReg .b .c) [0xAB] := by decide
theorem test_decode_bitXorReg :
    decode defaultOpcodeMap [0x43, 0x02, 0x03, 0xAB] = .instr (.bitXorReg .c .d) [0xAB] := by decide
theorem test_decode_bitNotStack : decode defaultOpcodeMap [0x44, 0xAB] = .instr .bitNotStack [0xAB] := by decide
theorem test_decode_bitAndStack : decode defaultOpcodeMap [0x45, 0xAB] = .instr .bitAndStack [0xAB] := by decide
theorem test_decode_bitOrStack : decode defaultOpcodeMap [0x46, 0xAB] = .instr .bitOrStack [0xAB] := by decide
theorem test_decode_bitXorStack : decode defaultOpcodeMap [0x47, 0xAB] = .instr .bitXorStack [0xAB] := by decide
theorem test_decode_cmpRegReg :
    decode defaultOpcodeMap [0x50, 0x03, 0x01, 0xAB] = .instr (.cmpRegReg .d .b) [0xAB] := by decide
theorem test_decode_cmpRegLit :
    decode defaultOpcodeMap [0x51, 0x02, 0x12, 0x34, 0x56, 0x78, 0xAB] = .instr
      (.cmpRegLit .c 0x12345678) [0xAB] := by decide
theorem test_decode_cmpStackLit :
    decode defaultOpcodeMap [0x52, 0x12, 0x34, 0x56, 0x78, 0xAB] = .instr
      (.cmpStackLit 0x12345678) [0xAB] := by decide
theorem test_decode_jmp :
    decode defaultOpcodeMap [0x60, 0x12, 0x34, 0x56, 0x78, 0xAB] = .instr (.jmp 0x12345678) [0xAB] := by decide
theorem test_decode_jmpEq :
    decode defaultOpcodeMap [0x61, 0x12, 0x34, 0x56, 0x78, 0xAB] = .instr (.jmpEq 0x12345678) [0xAB] := by decide
theorem test_decode_jmpNe :
    decode defaultOpcodeMap [0x62, 0x12, 0x34, 0x56, 0x78, 0xAB] = .instr (.jmpNe 0x12345678) [0xAB] := by decide
theorem test_decode_jmpGt :
    decode defaultOpcodeMap [0x63, 0x12, 0x34, 0x56, 0x78, 0xAB] = .instr (.jmpGt 0x12345678) [0xAB] := by decide
theorem test_decode_jmpSm :
    decode defaultOpcodeMap [0x64, 0x12, 0x34, 0x56, 0x78, 0xAB] = .instr (.jmpSm 0x12345678) [0xAB] := by decide
theorem test_decode_jmpOv :
    decode defaultOpcodeMap [0x65, 0x12, 0x34, 0x56, 0x78, 0xAB] = .instr (.jmpOv 0x12345678) [0xAB] := by decide
theorem test_decode_syscall : decode defaultOpcodeMap [0x70, 0xAB] = .instr .syscall [0xAB] := by decide
theorem test_decode_undefined_opcodes :
    decode defaultOpcodeMap [0x00, 0x01] = .noOp 0x00 [0x01] ∧
      decode defaultOpcodeMap [0xFF] = .noOp 0xFF [] := by decide

/-- V5. -/
theorem test_decode_cut_short : decode defaultOpcodeMap [0x20, 0x00, 0x00, 0x00] = .outOfBounds := by decide

/-- V7: the register byte is decoded before the literal is fetched. -/
theorem test_decode_register_before_literal :
    decode defaultOpcodeMap [0x20, 0x09, 0x00] = .illegalRegister := by decide
theorem test_decode_literal_before_register :
    decode defaultOpcodeMap [0x23, 0x00, 0x00, 0x00] = .outOfBounds := by decide

/-- P3, address 35. -/
theorem test_encode_mov_reg_heap : encode (.movRegHeap 0x10 .a) = [0x23, 0x00, 0x00, 0x00, 0x10, 0x00] := by decide
theorem test_table_word_exit : decodeTableWord 8 0x01 = some .exit := by decide

/-- The first byte stands in bits 7 to 0 of the table word, the literal after it. -/
theorem test_table_word_push_lit : decodeTableWord 40 0x0300000010 = some (.pushLit 3) := by decide
theorem test_table_word_mov_lit_reg : decodeTableWord 48 0x050000000320 = some (.movLitReg .d 5) := by decide
theorem test_table_word_undefined : decodeTableWord 8 0x00 = none := by decide

/-! ## One step of each instruction -/

/-- V1. -/
theorem test_exit :
    (after (exec .exit (prog []))).map (fun s => (s.flags.stop, s.pc, s.phase)) = some (true, 1, .run) := by decide

/-- V10. -/
theorem test_push_lit :
    (after (exec (.pushLit 0xFFFFFFFF) (stack []))).map (fun s => (s.stack, s.pc)) = some
      ([0xFFFFFFFF], 5) := by decide

/-- The third push of the growth example. -/
theorem test_push_lit_grows :
    (after (exec (.pushLit 7) (smallStack [2, 1] 2 4))).map (fun s => (s.stack, s.scap)) = some
      ([7, 2, 1], 4) := by decide

/-- The same push with `STACK_CAP_LIMIT = 3`. -/
theorem test_push_lit_exhausted :
    fault (exec (.pushLit 7) { smallStack [2, 1] 2 3 with pc := 10 }) = some (7, 10, .halted) := by decide

/-- V11. -/
theorem test_push_reg :
    (after (exec (.pushReg .d) { stack [] with regs := ⟨0, 0, 0, 0x80000000⟩ })).map
      (fun s => (s.stack, s.regs.d)) = some ([0x80000000], 0x80000000) := by decide

/-- V13. -/
theorem test_push_heap :
    (after (exec (.pushHeap 3) { heap [(3, 9)] 4 with scap := 1 })).map (·.stack) = some [9] := by decide

/-- V14. -/
theorem test_push_heap_unwritten :
    (after (exec (.pushHeap 0x12345678) (stack []))).map (fun s => (s.stack, s.hcap)) = some ([0], 0) := by decide

/-- V15. -/
theorem test_pop_reg :
    (after (exec (.popReg .c) (stack [1, 2]))).map (fun s => (s.regs.c, s.stack, s.pc)) = some
      (2, [1], 2) := by decide

/-- V16. -/
theorem test_pop_reg_underflow : fault (exec (.popReg .a) (stack [])) = some (4, 0, .halted) := by decide

/-- V18: a zero store is performed. -/
theorem test_pop_heap_zero :
    (after (exec (.popHeap 2) { heap [(2, 7)] 3 with stack := [0], scap := 1 })).map
      (fun s => (s.heap, s.stack, s.hcap)) = some ([], [], 3) := by decide

/-- V19. -/
theorem test_pop_heap_underflow : fault (exec (.popHeap 2) (stack [])) = some (4, 0, .halted) := by decide

/-- V20: the true top. -/
theorem test_dup : (after (exec .dup (stack [5, 6]))).map (·.stack) = some [6, 6, 5] := by decide

/-- V21. -/
theorem test_dup_underflow : fault (exec .dup (stack [])) = some (4, 0, .halted) := by decide

/-- V30. -/
theorem test_mov_lit_reg :
    (after (exec (.movLitReg .d 0x2A) (prog []))).map (fun s => (s.regs, s.pc)) = some
      (⟨0, 0, 0, 42⟩, 6) := by decide

/-- V31. -/
theorem test_mov_lit_heap :
    (after (exec (.movLitHeap 0xFFFFFFFF 1) (prog []))).map (fun s => (s.heap, s.hcap, s.pc)) = some
      ([(4294967295, 1)], 4294967296, 9) := by decide

/-- V33. -/
theorem test_mov_lit_heap_exhausted :
    fault (exec (.movLitHeap 0x10 1) (limited (prog []) 16 16)) = some (6, 0, .halted) := by decide

/-- V34. -/
theorem test_mov_heap_reg :
    (after (exec (.movHeapReg .b 4) (heap [(4, 0xCAFE)] 5))).map (·.regs) = some ⟨0, 0xCAFE, 0, 0⟩ := by decide

/-- V35. -/
theorem test_mov_heap_reg_beyond :
    (after (exec (.movHeapReg .b 0x64) (limited (prog []) 16 16))).map (fun s => (s.regs.b, s.hcap)) = some
      (0, 16) := by decide

/-- V36. -/
theorem test_mov_reg_heap :
    (after (exec (.movRegHeap 1 .c) (heap [(1, 5)] 2))).map (fun s => (s.heap, s.pc)) = some ([], 6) := by decide

/-- V37. -/
theorem test_mov_reg_reg :
    (after (exec (.movRegReg .a .b) (regs 3 4 0 0))).map (fun s => (s.regs, s.pc)) = some
      (⟨4, 4, 0, 0⟩, 3) := by decide

/-- V39. -/
theorem test_mov_heap_heap :
    (after (exec (.movHeapHeap 1 0) (heap [(0, 1), (1, 2)] 2))).map (fun s => (s.heap, s.pc)) = some
      ([(0, 1), (1, 1)], 9) := by decide

/-- V40. -/
theorem test_mov_heap_heap_grows :
    (after (exec (.movHeapHeap 3 3) (limited (prog []) 0 16))).map (fun s => (s.heap, s.hcap)) = some
      ([], 4) := by decide

/-- V51. -/
theorem test_math_add_reg :
    (after (exec (.mathAddReg .a .b) (regs 0xFFFFFFFF 1 0 0))).map
      (fun s => (s.regs.a, s.flags.overflow)) = some (0, true) := by decide

/-- V73. -/
theorem test_math_add_reg_same :
    (after (exec (.mathAddReg .a .a) (regs 0x7FFFFFFF 0 0 0))).map
      (fun s => (s.regs.a, s.flags.overflow)) = some (0xFFFFFFFE, false) := by decide

/-- V56. -/
theorem test_math_sub_reg :
    (after (exec (.mathSubReg .a .b) (regs 3 5 0 0))).map (fun s => (s.regs.a, s.flags.overflow)) = some
      (0xFFFFFFFE, true) := by decide

/-- V58. -/
theorem test_math_sub_reg_equal :
    (after (exec (.mathSubReg .a .b) (regs 7 7 0 0))).map (fun s => (s.regs.a, s.flags.overflow)) = some
      (0, false) := by decide

/-- V63. -/
theorem test_math_mul_reg :
    (after (exec (.mathMulReg .a .b) (regs 0xFFFFFFFF 0xFFFFFFFF 0 0))).map
      (fun s => (s.regs.a, s.flags.overflow)) = some (1, true) := by decide

/-- V62. -/
theorem test_math_mul_reg_fits :
    (after (exec (.mathMulReg .a .b) (regs 0xFFFF 0x10001 0 0))).map
      (fun s => (s.regs.a, s.flags.overflow)) = some (0xFFFFFFFF, false) := by decide

/-- V66, with Overflow set before. -/
theorem test_math_div_reg :
    (after (exec (.mathDivReg .a .b) { regs 7 2 0 0 with flags := ⟨false, false, false, false, true, false⟩ })).map
      (fun s => (s.regs.a, s.flags.overflow)) = some (3, true) := by decide

/-- V70. -/
theorem test_math_div_reg_by_zero :
    fault (exec (.mathDivReg .a .b) (regs 5 0 0 0)) = some (5, 0, .halted) := by decide

/-- V81. -/
theorem test_math_add_stack :
    (after (exec .mathAddStack (stack [0xFFFFFFFF, 0xFFFFFFFF]))).map
      (fun s => (s.stack, s.flags.overflow)) = some ([0xFFFFFFFE], true) := by decide

/-- V88: the popped value stays. -/
theorem test_math_add_stack_underflow :
    (after (exec .mathAddStack (stack [5]))).map (fun s => (s.faultCause, s.stack)) = some (4, [5]) := by decide

/-- V90. -/
theorem test_math_sub_stack :
    (after (exec .mathSubStack (stack [9, 1, 2]))).map (fun s => (s.stack, s.flags.overflow)) = some
      ([0xFFFFFFFF, 9], true) := by decide

/-- V84. -/
theorem test_math_mul_stack :
    (after (exec .mathMulStack (stack [0x80000000, 2]))).map (fun s => (s.stack, s.flags.overflow)) = some
      ([0], true) := by decide

/-- V85. -/
theorem test_math_div_stack :
    (after (exec .mathDivStack (stack [20, 6]))).map (fun s => (s.stack, s.flags.overflow)) = some
      ([3], false) := by decide

/-- V89. -/
theorem test_math_div_stack_underflow : fault (exec .mathDivStack (stack [0])) = some (4, 0, .halted) := by decide

/-- V101. -/
theorem test_bit_not_reg :
    (after (exec (.bitNotReg .a) (regs 0x0F0F0F0F 0 0 0))).map (·.regs.a) = some 0xF0F0F0F0 := by decide

/-- V102. -/
theorem test_bit_and_reg :
    (after (exec (.bitAndReg .a .b) (regs 0xFF00FF00 0x0FF00FF0 0 0))).map (·.regs.a) = some 0x0F000F00 := by decide

/-- V103. -/
theorem test_bit_or_reg :
    (after (exec (.bitOrReg .a .b) (regs 0xFF00FF00 0x0FF00FF0 0 0))).map (·.regs.a) = some 0xFFF0FFF0 := by decide

/-- V104. -/
theorem test_bit_xor_reg :
    (after (exec (.bitXorReg .a .b) (regs 0xFF00FF00 0x0FF00FF0 0 0))).map (·.regs.a) = some 0xF0F0F0F0 := by decide

/-- V107. -/
theorem test_bit_not_stack : (after (exec .bitNotStack (stack [5]))).map (·.stack) = some [0xFFFFFFFA] := by decide

/-- V108. -/
theorem test_bit_and_stack : (after (exec .bitAndStack (stack [0xC, 0xA]))).map (·.stack) = some [0x8] := by decide

/-- V109. -/
theorem test_bit_or_stack : (after (exec .bitOrStack (stack [0xC, 0xA]))).map (·.stack) = some [0xE] := by decide

/-- V110. -/
theorem test_bit_xor_stack : (after (exec .bitXorStack (stack [0xC, 0xA]))).map (·.stack) = some [0x6] := by decide

/-- V124: unsigned. -/
theorem test_cmp_reg_reg :
    (after (exec (.cmpRegReg .a .b) (regs 0x80000000 1 0 0))).map (·.flags) = some
      ⟨false, true, true, false, false, false⟩ := by decide

/-- V123. -/
theorem test_cmp_reg_reg_same :
    (after (exec (.cmpRegReg .a .a) (regs 7 0 0 0))).map (·.flags) = some
      ⟨true, false, false, false, false, false⟩ := by decide

/-- V126. -/
theorem test_cmp_reg_lit :
    (after (exec (.cmpRegLit .c 0xFFFFFFFF) (regs 0 0 0 0))).map (fun s => (s.flags, s.pc)) = some
      (⟨false, true, false, true, false, false⟩, 6) := by decide

/-- V127. -/
theorem test_cmp_stack_lit :
    (after (exec (.cmpStackLit 5) (stack [7]))).map (fun s => (s.flags, s.stack)) = some
      (⟨false, true, true, false, false, false⟩, [7]) := by decide

/-- V129. -/
theorem test_cmp_stack_lit_underflow : fault (exec (.cmpStackLit 0) (stack [])) = some (4, 0, .halted) := by decide

/-- A jump at instruction address 10, with one flag set or not. -/
def at10 (f : Flags) : State := { prog [] with pc := 10, flags := f }

/-- V141. -/
theorem test_jmp_to_zero :
    (after (exec (.jmp 0) (at10 ⟨false, false, false, false, false, false⟩))).map (·.pc) = some 0 := by decide

/-- V143. -/
theorem test_jmp_eq_taken :
    (after (exec (.jmpEq 0x20) (at10 ⟨true, false, false, false, false, false⟩))).map (·.pc) = some
      0x20 := by decide

/-- V144. -/
theorem test_jmp_eq_not_taken :
    (after (exec (.jmpEq 0x20) (at10 ⟨false, false, false, false, false, false⟩))).map (·.pc) = some 15 := by decide

/-- V145. -/
theorem test_jmp_ne_taken :
    (after (exec (.jmpNe 0x20) (at10 ⟨false, true, false, false, false, false⟩))).map (·.pc) = some
      0x20 := by decide

/-- V146. -/
theorem test_jmp_ne_not_taken :
    (after (exec (.jmpNe 0x20) (at10 ⟨false, false, false, false, false, false⟩))).map (·.pc) = some 15 := by decide

/-- V147. -/
theorem test_jmp_gt_taken :
    (after (exec (.jmpGt 0x20) (at10 ⟨false, false, true, false, false, false⟩))).map (·.pc) = some
      0x20 := by decide

/-- V148. -/
theorem test_jmp_gt_not_taken :
    (after (exec (.jmpGt 0x20) (at10 ⟨false, false, false, false, false, false⟩))).map (·.pc) = some 15 := by decide

/-- V149. -/
theorem test_jmp_sm_taken :
    (after (exec (.jmpSm 0x20) (at10 ⟨false, false, false, true, false, false⟩))).map (·.pc) = some
      0x20 := by decide

/-- V150. -/
theorem test_jmp_sm_not_taken :
    (after (exec (.jmpSm 0x20) (at10 ⟨false, false, false, false, false, false⟩))).map (·.pc) = some 15 := by decide

/-- V151. -/
theorem test_jmp_ov_taken :
    (after (exec (.jmpOv 0x20) (at10 ⟨false, false, false, false, true, false⟩))).map (·.pc) = some
      0x20 := by decide

/-- V152. -/
theorem test_jmp_ov_not_taken :
    (after (exec (.jmpOv 0x20) (at10 ⟨false, false, false, false, false, false⟩))).map (·.pc) = some 15 := by decide

/-- V162: addresses wrap, bytes go most significant first. -/
theorem test_syscall_write :
    (after (exec .syscall { heap [(0, 2), (4294967295, 1)] 4294967296 with regs := ⟨0, 0xFFFFFFFF, 2, 0⟩ })).map
      (·.hostLog) = some [.write [0x00, 0x00, 0x00, 0x01, 0x00, 0x00, 0x00, 0x02]] := by decide

/-- V163. -/
theorem test_syscall_read :
    (after (exec .syscall { regs 1 8 0 0 with inbox := [[0x61, 0xFF, 0x00]] })).map
      (fun s => (s.heap, s.hcap, s.regs.b, s.pc)) =
      some ([(8, 0x61), (9, 0xFF)], 11, 8, 1) := by decide

/-! ## Whole steps -/

/-- V2. -/
theorem test_step_undefined_opcode :
    (after (step (prog [0x00, 0xFF, 0x1D, 0x01]))).map (fun s => (s.pc, s.phase)) = some (1, .run) := by decide

/-- V3. -/
theorem test_step_empty_image : fault (step (prog [])) = some (2, 0, .halted) := by decide

/-- V6. -/
theorem test_step_illegal_register :
    fault (step (prog [0x20, 0x07, 0x00, 0x00, 0x00, 0x05, 0x01])) = some (3, 0, .halted) := by decide

/-- V17. -/
theorem test_step_illegal_register_before_pop : fault (step (prog [0x13, 0x05])) = some (3, 0, .halted) := by decide

/-- V1, the last transition. -/
theorem test_step_stop_halts :
    (after (step { prog [0x01] with flags := ⟨false, false, false, false, false, true⟩ })).map
      (fun s => (s.phase, s.faultCause)) =
      some (.halted, 0) := by decide

/-- A block started with an image. -/
def started (image : List Byte) : State := (State.resetWith resetParams image).start

/-- S8. -/
theorem test_header_empty :
    (after (step (started [0x1D, 0x1D, 0x1D, 0x1D, 0x01]))).map (fun s => (s.hs, s.heap, s.hcap)) = some
      (4, [], 0) := by decide

/-- S9. -/
theorem test_header_two_bytes :
    (after (step (started [0xAA, 0xBB, 0x1D, 0x1D, 0x1D, 0x1D, 0x01]))).map (fun s => (s.hs, s.heap, s.hcap)) =
      some (6, [(0, 0xAA), (1, 0xBB)], 2) := by decide

/-- V186: a window at every offset; cell 3 holds 0. -/
theorem test_header_first_window :
    (after (step (started [0x1D, 0x1D, 0x1D, 0x00, 0x1D, 0x1D, 0x1D, 0x1D, 0x01]))).map
      (fun s => (s.hs, s.heap, s.hcap)) =
      some (8, [(0, 0x1D), (1, 0x1D), (2, 0x1D)], 4) := by decide

/-- V183. -/
theorem test_header_malformed :
    (after (step (started [0x01, 0x1D, 0x1D, 0x1D]))).map (fun s => (s.faultCause, s.faultPc, s.heap)) = some
      (1, 0, []) := by decide

/-- V167: the host prints 4294967295. -/
theorem test_print_text :
    decimalText 0xFFFFFFFF = [0x34, 0x32, 0x39, 0x34, 0x39, 0x36, 0x37, 0x32, 0x39, 0x35] := by decide
theorem test_fetch_word_runs :
    (after (step (State.reset.withFetchWord 40 0x0300000010))).map (fun s => (s.stack, s.pc)) = some
      ([3], 5) := by decide
theorem test_reset_has_canonical_memory : Memory.wf State.reset.heap = true := by decide

/-! ## Witnesses for the statements -/

theorem witness_decodeOfEncodeUnderAnyMap :
    (Instr.dup).wellFormed [(0x80, .dup)] = true ∧
      (Instr.jmp 7).wellFormed [(0x01, .jmp), (0x01, .exit)] = true := by decide
theorem witness_onlyEncodingsDecode :
    decode defaultOpcodeMap [0x13, 0x02, 0x99] = .instr (.popReg .c) [0x99] := by decide
/-- The hypotheses of a step that fetches: running, Stop clear, the map of R108, and this window at the pc. -/
def Fetches (s : State) (window : List Byte) : Prop :=
  s.phase = .run ∧ s.flags.stop = false ∧ s.params.opcodeMap = defaultOpcodeMap ∧ s.fetchBytes maxLength s.pc = window

theorem witness_undefinedOpcodeOnlyAdvancesPc_lowest :
    Fetches (prog [0x00]) [0x00] ∧ (prog [0x00]).imgFetch 0 = some
      0x00 ∧ undefinedInR110 0x00 = true := by
  unfold Fetches
  decide
theorem witness_undefinedOpcodeOnlyAdvancesPc_highest :
    Fetches (prog [0xFF]) [0xFF] ∧ (prog [0xFF]).imgFetch 0 = some
      0xFF ∧ undefinedInR110 0xFF = true := by
  unfold Fetches
  decide
theorem witness_invalidRegisterByteFaults_first :
    Fetches (prog [0x13, 0x04]) [0x13, 0x04] ∧ defaultOpcodeMap.find 0x13 = some .popReg ∧ Op.popReg.format = .r ∧
      4 ≤ (0x04 : Byte).toNat := by
  unfold Fetches
  decide
theorem witness_invalidRegisterByteFaults_second :
    Fetches (prog [0x24, 0x03, 0xFF]) [0x24, 0x03, 0xFF] ∧ defaultOpcodeMap.find 0x24 = some .movRegReg ∧
      Op.movRegReg.format = .rr ∧ (0x03 : Byte).toNat < 4 ∧ 4 ≤ (0xFF : Byte).toNat := by
  unfold Fetches
  decide
theorem witness_invalidRegisterByteFaults_afterLiteral :
    Fetches (prog [0x23, 0, 0, 0, 1, 0x04]) [0x23, 0, 0, 0, 1, 0x04] ∧ defaultOpcodeMap.find 0x23 = some
      .movRegHeap ∧
      Op.movRegHeap.format = .lr ∧ 4 ≤ (0x04 : Byte).toNat := by
  unfold Fetches
  decide
theorem witness_fetchPastTheImageFaults_opcode :
    Fetches { prog [0x01] with pc := 1 } [] ∧
      (prog [0x01]).image.length ≤ (1 : Word).toNat + (prog [0x01]).hs.toNat := by
  unfold Fetches
  decide
theorem witness_fetchPastTheImageFaults_operand :
    Fetches (prog [0x20, 0x00, 0x00, 0x00]) (0x20 :: (operandBytes (.movLitReg .a 0)).take 3) ∧
      (prog []).params.opcodeMap.find 0x20 = some (Instr.movLitReg .a 0).op ∧
      imageLengthOk (prog [0x20, 0x00, 0x00, 0x00]).image.length = true ∧
      3 < (operandBytes (.movLitReg .a 0)).length ∧
      (prog [0x20, 0x00, 0x00, 0x00]).image.drop (0 + 4) = 0x20 :: (operandBytes (.movLitReg .a 0)).take 3 := by
  unfold Fetches
  decide
theorem witness_fetchPastTheImageFaults_noOperand :
    Fetches (prog [0x11]) [0x11] ∧ (prog []).params.opcodeMap.find 0x11 = some (Instr.pushReg .a).op ∧
      imageLengthOk (prog [0x11]).image.length = true ∧ 0 < (operandBytes (.pushReg .a)).length ∧
      (prog [0x11]).image.drop (0 + 4) = 0x11 :: (operandBytes (.pushReg .a)).take 0 := by
  unfold Fetches
  decide
theorem witness_stepRunsTheDecodedInstruction :
    Fetches (prog [0x15, 0x70]) [0x15, 0x70] ∧ decode defaultOpcodeMap [0x15, 0x70] = .instr
      .dup [0x70] := by
  unfold Fetches
  decide
theorem witness_stepRunsTheInstructionInTheImage :
    Fetches (prog [0x11, 0x03, 0x70]) [0x11, 0x03, 0x70] ∧
      imageLengthOk (prog [0x11, 0x03, 0x70]).image.length = true ∧
      (prog []).params.opcodeMap.find 0x11 = some (Instr.pushReg .d).op ∧
      (prog [0x11, 0x03, 0x70]).image.drop (0 + 4) = 0x11 :: (operandBytes (.pushReg .d) ++ [0x70]) := by
  unfold Fetches
  decide
theorem witness_exitSetsStopThenHalts :
    (prog []).phase = .run ∧ (after (exec .exit (prog []))).isSome = true := by decide

/-- A full stack whose doubled capacity is the limit. -/
theorem witness_pushesComplete_full :
    (smallStack [2, 1] 2 4).HasRoom ∧
      (smallStack [2, 1] 2 4).stack.length = (smallStack [2, 1] 2 4).scap := by
  unfold State.HasRoom
  decide

/-- An empty stack of capacity 0, limit 1. -/
theorem witness_pushesComplete_empty : (smallStack [] 0 1).HasRoom := by
  unfold State.HasRoom
  decide
theorem witness_popRegCompletes : (stack [1, 2]).stack = 2 :: [1] := by decide

/-- The highest address under the limit. -/
theorem witness_popHeapCompletes :
    (limited (stack [9]) 0 16).stack = 9 :: [] ∧ (limited (stack [9]) 0 16).CanStore 15 ∧
      Memory.wf (limited (stack [9]) 0 16).heap = true ∧
      (limited (stack [9]) 0 16).HeapFits := by
  unfold State.CanStore State.HeapFits
  decide
theorem witness_dupCompletes :
    (smallStack [6, 5] 2 4).stack = 6 :: [5] ∧ (smallStack [6, 5] 2 4).HasRoom := by
  unfold State.HasRoom
  decide
theorem witness_pushPastTheLimitFaults :
    (smallStack [2, 1] 2 3).stack.length = 2 ∧ (smallStack [2, 1] 2 3).scap = 2 ∧
      (smallStack [2, 1] 2 3).params.stackCapLimit < max 1 (2 * 2) ∧ (smallStack [2, 1] 2 3).stack ≠ [] := by decide
theorem witness_pushPastTheLimitFaults_noStack :
    (smallStack [] 0 0).stack.length = (smallStack [] 0 0).scap ∧
      (smallStack [] 0 0).params.stackCapLimit < max 1 (2 * (smallStack [] 0 0).scap) := by decide
theorem witness_stackUnderflowFaults : (stack []).stack = [] ∧ (stack [5]).stack.length < 2 := by decide
theorem witness_popsReturnPushesInReverse :
    ((smallStack [] 0 4).pushAll [1, 2, 3]).toOption.map (·.stack) = some [3, 2, 1] := by decide

/-- The highest address under the limit, and one below the capacity. -/
theorem witness_movesToTheHeapComplete :
    (limited (heap [(1, 5)] 2) 2 16).CanStore 15 ∧ (limited (heap [(1, 5)] 2) 2 16).CanStore 1 ∧
      Memory.wf (limited (heap [(1, 5)] 2) 2 16).heap = true ∧
      (limited (heap [(1, 5)] 2) 2 16).HeapFits := by
  unfold State.CanStore State.HeapFits
  decide
theorem witness_storePastTheLimitFaults :
    (limited (stack [9]) 16 16).hcap ≤ (16 : Word).toNat ∧
      (limited (stack [9]) 16 16).params.heapCapLimit < (16 : Word).toNat + 1 ∧
      (limited (stack [9]) 16 16).stack ≠ [] := by decide
theorem witness_heapReadsTheLastWrite :
    ((heap [(1, 5)] 2).memWrite 4 7).toOption.map (fun s => (s.heap, s.hcap)) = some ([(1, 5), (4, 7)], 5) ∧
      Memory.wf (heap [(1, 5)] 2).heap = true ∧ (heap [(1, 5)] 2).HeapFits := by
  unfold State.HeapFits
  decide
theorem witness_addSubMulComplete :
    (stack [3, 4]).stack = 4 :: 3 :: [] ∧ (stack [3, 4]).StackFits := by
  unfold State.StackFits
  decide
theorem witness_divideCompletesOrFaults :
    (regs 7 2 0 0).reg .b ≠ 0 ∧ (regs 7 2 0 0).reg .c = 0 ∧
      (stack [7, 2]).stack = 2 :: 7 :: [] ∧ (stack [7, 2]).StackFits ∧
      (stack [7, 0]).stack = 0 :: 7 :: [] := by
  unfold State.StackFits
  decide
theorem witness_bitwiseStackFormsComplete :
    (stack [5]).stack = 5 :: [] ∧ (stack [5]).StackFits ∧ (stack [1, 2]).stack = 2 :: 1 :: [] ∧
      (stack [1, 2]).StackFits := by
  unfold State.StackFits
  decide
theorem witness_comparesComplete : (stack [1, 7]).stack = 7 :: [1] := by decide
theorem witness_syscallWriteSendsTheCells :
    (heap [(5, 0x41424344)] 6).reg .a = 0 ∧ (heap [(5, 0x41424344)] 6).hcap ≤ (6 : Word).toNat := by decide
/-- A block that waits at a `syscall` whose request is out. -/
def waiting : State :=
  { prog [0x70] with regs := ⟨1, 8, 0, 0⟩, hostLog := [.read], awaitingReply := true }

/-- A read request at address `b` with its reply, under a heap limit. -/
def answered (b : Word) (cap limit : Nat) (reply : List Byte) : State :=
  { limited (regs 1 b 0 0) cap limit with inbox := [reply] }

/-- The last two cells under the limit. -/
theorem witness_syscallReadStoresTheReply :
    (answered 14 0 16 [0x61, 0xFF]).reg .a = 1 ∧ (answered 14 0 16 [0x61, 0xFF]).inbox = [0x61, 0xFF] :: [] ∧
      ([0x61, 0xFF] : List Byte).length ≤ 4294967296 ∧ Memory.wf (answered 14 0 16 [0x61, 0xFF]).heap = true ∧
      (answered 14 0 16 [0x61, 0xFF]).HeapFits ∧
      ∀ k, k < 2 → (answered 14 0 16 [0x61, 0xFF]).CanStore (14 + BitVec.ofNat 32 k) := by
  unfold State.CanStore State.HeapFits
  decide
theorem witness_syscallReadWaitsForTheReply :
    waiting.phase = .run ∧ waiting.flags.stop = false ∧ waiting.fetchDecode = .instr
      .syscall [] ∧ waiting.reg .a = 1 ∧
      waiting.inbox = [] ∧ waiting.awaitingReply = true := by decide
theorem witness_syscallReadWaitsForTheReply_first : (regs 1 8 0 0).reg .a = 1 ∧ (regs 1 8 0 0).inbox = [] := by decide

/-- V171. -/
theorem witness_syscallReadPastTheLimitFaults :
    (answered 15 16 16 [0x01, 0x02]).reg .a = 1 ∧ (answered 15 16 16 [0x01, 0x02]).inbox = [0x01, 0x02] :: [] ∧
      1 < ([0x01, 0x02] : List Byte).length ∧
      ¬ (answered 15 16 16 [0x01, 0x02]).CanStore (15 + BitVec.ofNat 32 1) := by
  unfold State.CanStore
  decide
theorem witness_syscallClearPrintAndNoOp :
    (regs 2 0 0 0).reg .a = 2 ∧ (regs 3 7 0 0).reg .a = 3 ∧ 4 ≤ ((regs 4 0 0 0).reg .a).toNat ∧
      4 ≤ ((regs 0xFFFFFFFF 0 0 0).reg .a).toNat := by decide
theorem witness_printedTextIsTheDecimalValue :
    (regs 3 7 0 0).reg .a = 3 ∧ (1 : Word) ≠ 0 ∧ (0xFFFFFFFF : Word) ≠ 0 := by decide
theorem witness_onlySyscallReachesTheHost :
    Instr.dup ≠ .syscall ∧ (after (exec .dup (stack [5]))).isSome = true := by decide
/-- A started block with a heap limit. -/
def startedLimited (image : List Byte) (limit : Nat) : State := limited (started image) 0 limit

/-- The hypotheses of the two statements about a header of these bytes. -/
def HeaderIs (s : State) (header rest : List Byte) : Prop :=
  s.phase = .header ∧ s.image = header ++ [0x1D, 0x1D, 0x1D, 0x1D] ++ rest ∧ imageLengthOk s.image.length = true ∧
    ∀ k, k < header.length → (s.image.drop k).take 4 ≠ [0x1D, 0x1D, 0x1D, 0x1D]

/-- An image of two header bytes, an empty program and one trailing byte (S9). -/
def twoBytes : List Byte := [0xAA, 0xBB, 0x1D, 0x1D, 0x1D, 0x1D, 0x01]

/-- S9, with a heap limit of just the header. -/
theorem witness_headerParseLoadsTheHeader :
    HeaderIs (startedLimited twoBytes 2) [0xAA, 0xBB] [0x01] ∧ Memory.wf (startedLimited twoBytes 2).heap = true ∧
      (startedLimited twoBytes 2).HeapFits ∧
      2 ≤ max (startedLimited twoBytes 2).hcap (startedLimited twoBytes 2).params.heapCapLimit := by
  unfold HeaderIs State.HeapFits
  decide

/-- V182: no header byte. -/
theorem witness_headerParseLoadsTheHeader_empty :
    HeaderIs (startedLimited [0x1D, 0x1D, 0x1D, 0x1D] 0) [] [] ∧
      0 ≤
        max (startedLimited [0x1D, 0x1D, 0x1D, 0x1D] 0).hcap (startedLimited [0x1D, 0x1D, 0x1D, 0x1D] 0).params.heapCapLimit := by
  unfold HeaderIs
  decide

/-- V183, with a heap limit of just the one byte scanned. -/
theorem witness_imageWithoutSentinelFaults :
    (startedLimited [0x01, 0x1D, 0x1D, 0x1D] 1).phase = .header ∧
      imageLengthOk (startedLimited [0x01, 0x1D, 0x1D, 0x1D] 1).image.length = true ∧
      hasSentinel (startedLimited [0x01, 0x1D, 0x1D, 0x1D] 1).image = false ∧
      (startedLimited [0x01, 0x1D, 0x1D, 0x1D] 1).image.length ≤ max 0 1 + 3 := by decide

/-- V181. -/
theorem witness_imageWithoutSentinelFaults_empty :
    (startedLimited [] 0).phase = .header ∧ imageLengthOk (startedLimited [] 0).image.length = true ∧
      hasSentinel (startedLimited [] 0).image = false ∧
      (startedLimited [] 0).image.length ≤ max 0 0 + 3 := by decide
theorem witness_headerPastTheHeapLimitFaults :
    HeaderIs (startedLimited twoBytes 1) [0xAA, 0xBB] [0x01] ∧ (startedLimited twoBytes 1).hcap ≤ 1 ∧
      (startedLimited twoBytes 1).params.heapCapLimit = 1 ∧ 1 < ([0xAA, 0xBB] : List Byte).length := by
  unfold HeaderIs
  decide
theorem witness_startOnlyFromReset : State.reset.phase = .reset ∧ (prog []).phase ≠ .reset := by decide
theorem witness_stopHaltsBeforeTheFetch :
    (prog []).phase = .run ∧ (prog []).flags.stop = false ∧
      ({ prog [] with flags := ⟨false, false, false, false, false, true⟩ } : State).flags.stop = true := by decide
/-- A block that has faulted. -/
def faulted : State := (stack []).enterFault .stackUnderflow 0

theorem witness_onlyResetLeavesHalted :
    faulted.phase = .halted ∧ (after (faulted.load [0x1D, 0x1D, 0x1D, 0x1D])).isSome = true := by decide
theorem witness_faultsArePrecise :
    (prog [0x34]).faultCause = 0 ∧ (after (step (prog [0x34]))).map (·.faultCause) = some 4 := by decide
theorem witness_faultsArePrecise_header :
    (started []).faultCause = 0 ∧ (after (step (started []))).map (·.faultCause) = some 1 := by decide
theorem witness_onlyTheDestinationRegisterChanges :
    (Instr.popReg .c).destination ≠ some .a ∧ (after (exec (.popReg .c) (stack [1, 2]))).isSome = true := by decide
theorem witness_flagsChangeOnlyByTheirOwners :
    (Instr.dup).isCompare = false ∧ (Instr.dup).writesOverflow = false ∧ Instr.dup ≠ .exit ∧
      (after (exec .dup (stack [5]))).isSome = true := by decide
theorem witness_onlyStoringInstructionsChangeTheHeap :
    (Instr.dup).mayStore = false ∧ (after (exec .dup (stack [5]))).isSome = true := by decide
theorem witness_pcEndsAtTheNextOpcode :
    (Instr.dup).isJump = false ∧ (stack [5]).phase = .run ∧
      (after (exec .dup (stack [5]))).map (fun t => (t.phase, t.awaitingReply)) = some (.run, false) := by decide

/-- For `CapacitiesNeverShrink` and `StepsNeverWriteTheImage`. -/
theorem witness_stepsAnswer :
    (after (step (prog [0x15]))).isSome = true ∧ (prog [0x15]).phase ≠ .header ∧
      (after (State.reset.load [0x1D, 0x1D, 0x1D, 0x1D])).isSome = true := by decide
theorem witness_invariantHoldsAtReset :
    Params.wellFormed { resetParams with heapInitCap := 16, heapCapLimit := 16 } = true := by decide
/-- A running block with registers, stack, heap and flags in use meets the invariant. -/
theorem witness_everyStepKeepsTheInvariant_running :
    Inv { prog [0x15, 0x01] with
      regs := ⟨1, 2, 3, 4⟩, stack := [5], scap := 1, heap := [(2, 7)], hcap := 3,
      flags := ⟨false, true, true, false, true, false⟩ } where
  params := by decide
  heapWf := by decide
  heapFits := by unfold State.HeapFits; decide
  heapLimit := by decide
  stackFits := by unfold State.StackFits; decide
  stackLimit := by decide
  flags := by unfold Flags.Consistent; decide
  bp := by decide
  fresh := by decide
  running := fun _ => by decide
  ended := by decide
  waiting := fun h => nomatch h

/-- And the step from it answers. -/
theorem witness_everyStepKeepsTheInvariant_step :
    (after (step { prog [0x15, 0x01] with
      regs := ⟨1, 2, 3, 4⟩, stack := [5], scap := 1, heap := [(2, 7)], hcap := 3,
      flags := ⟨false, true, true, false, true, false⟩ })).map (fun t => (t.stack, t.scap)) = some ([5, 5], 2) := by
  decide

/-- A waiting block meets the invariant (`HostInputsKeepTheInvariant` and the wait). -/
theorem witness_hostInputsKeepTheInvariant_waiting : Inv waiting where
  params := by decide
  heapWf := by decide
  heapFits := by unfold State.HeapFits; decide
  heapLimit := by decide
  stackFits := by unfold State.StackFits; decide
  stackLimit := by decide
  flags := by unfold Flags.Consistent; decide
  bp := by decide
  fresh := by decide
  running := fun _ => by decide
  ended := by decide
  waiting := fun _ => ⟨by decide, by decide, by decide, [], by decide⟩

/-- A faulted block meets it too, and takes a load. -/
theorem witness_hostInputsKeepTheInvariant_load :
    Inv faulted ∧ (after (faulted.load [0x1D, 0x1D, 0x1D, 0x1D, 0x01])).isSome = true := by
  refine ⟨?_, by decide⟩
  exact {
    params := by decide
    heapWf := by decide
    heapFits := by unfold State.HeapFits; decide
    heapLimit := by decide
    stackFits := by unfold State.StackFits; decide
    stackLimit := by decide
    flags := by unfold Flags.Consistent; decide
    bp := by decide
    fresh := by decide
    running := by decide
    ended := fun _ => .inr (by decide)
    waiting := fun h => nomatch h }

/-- Two states of different capacities and limits on which the same store completes. -/
theorem witness_capacitiesAreHidden :
    SameButCapacities (limited (heap [(1, 5)] 2) 2 16) (limited (heap [(1, 5)] 2) 9 64) ∧
    (limited (heap [(1, 5)] 2) 2 16).HeapFits ∧ (limited (heap [(1, 5)] 2) 9 64).HeapFits ∧
    (limited (heap [(1, 5)] 2) 2 16).StackFits ∧ (limited (heap [(1, 5)] 2) 9 64).StackFits ∧
    (after (exec (.movLitHeap 4 8) (limited (heap [(1, 5)] 2) 2 16))).map (·.faultCause) = some 0 ∧
    (after (exec (.movLitHeap 4 8) (limited (heap [(1, 5)] 2) 9 64))).map (·.faultCause) = some 0 := by
  unfold SameButCapacities State.HeapFits State.StackFits
  decide

theorem witness_statusPortShowsAHaltedBlock : faulted.phase = .halted ∧ (prog []).phase ≠ .halted := by decide

end Sys2Proof.Tests
end

section
/-! The status port (10_state R34, 00_scope R16): when it is readable, and where each flag stands in its flag word. -/

namespace Sys2Proof.Machine

theorem State.statusPort_of_halted {s : State} (h : s.phase = .halted) :
    s.statusPort = some ⟨s.regs, s.flags.word, s.pc, s.bp, s.faultCause, s.faultPc⟩ := by
  simp only [State.statusPort, h]

theorem State.statusPort_of_not_halted {s : State} (h : s.phase ≠ .halted) : s.statusPort = none := by
  unfold State.statusPort
  split
  case h_1 hh => exact absurd hh h
  all_goals rfl

/-- The flag word read at any index: the six flags in the enumeration order of R27, then zeros. -/
theorem Flags.word_getLsbD (f : Flags) (k : Nat) :
    f.word.getLsbD k =
      [f.equal, f.notEqual, f.greater, f.smaller, f.overflow, f.stop].getD k false := by
  unfold Flags.word
  repeat rw [BitVec.getLsbD_append]
  match k with
  | 0 | 1 | 2 | 3 | 4 | 5 => simp
  | k + 6 => simp

/-- Settles O57: the port's two cases by the phase, the flag word's bits by their place in the enumeration. -/
theorem statusPortShowsAHaltedBlock : Obligations.StatusPortShowsAHaltedBlock :=
  ⟨fun _ => State.statusPort_of_halted, fun _ => State.statusPort_of_not_halted, fun f =>
    ⟨f.word_getLsbD 0, f.word_getLsbD 1, f.word_getLsbD 2, f.word_getLsbD 3, f.word_getLsbD 4, f.word_getLsbD 5⟩⟩

end Sys2Proof.Machine
end

section
/-! What an instruction can do to the flags (10_state R28 to R32), said once: a shared operation leaves them alone or
writes Overflow, and of every instruction `FlagWrite` lists the one write it owns. -/

namespace Sys2Proof.Machine

/-! ## The shared operations -/

theorem State.memWrite_flags {s u : State} {a v : Word} (h : s.memWrite a v = .ok u) : u.flags = s.flags := by
  obtain ⟨-, rfl⟩ := State.memWrite_inv h
  rfl

theorem State.push_flags {s u : State} {v : Word} (h : s.push v = .ok u) : u.flags = s.flags := by
  obtain ⟨-, rfl⟩ := State.push_inv h
  rfl

theorem State.pop_flags {s u : State} {v : Word} (h : s.pop = .ok (v, u)) : u.flags = s.flags := by
  obtain ⟨-, e⟩ := State.pop_inv h
  rw [e]

theorem State.storeBytes_flags {s u : State} {a : Word} {bs : List Byte} (h : s.storeBytes a bs = .ok u) :
    u.flags = s.flags := by
  obtain ⟨e, -⟩ := State.storeBytes_inv h
  rw [e]

theorem State.regForm_flags {s u : State} {f : Word → Word → Except FaultCause AluOut} {ra rb : Reg}
    (h : s.regForm f ra rb = .ok u) :
    ∃ a b out, f a b = .ok out ∧ u.flags = (s.setOverflow out.overflow).flags := by
  obtain ⟨out, ho, rfl⟩ := State.regForm_inv h
  exact ⟨_, _, out, ho, rfl⟩

theorem State.stackForm_flags {s u : State} {f : Word → Word → Except FaultCause AluOut}
    (h : s.stackForm f = .ok u) :
    ∃ a b out, f a b = .ok out ∧ u.flags = (s.setOverflow out.overflow).flags := by
  obtain ⟨b, a, _, out, -, ho, e, -⟩ := State.stackForm_inv h
  exact ⟨a, b, out, ho, by rw [e]⟩

/-- An ALU operation that does not own Overflow (R29): division and the bitwise ones. -/
def KeepsOverflow (f : Word → Word → Except FaultCause AluOut) : Prop :=
  ∀ a b out, f a b = .ok out → out.overflow = none

theorem aluDiv_keepsOverflow : KeepsOverflow aluDiv := by
  intro a b out h
  unfold aluDiv at h
  split at h
  · cases h
  · cases h; rfl

theorem aluAnd_keepsOverflow : KeepsOverflow aluAnd := by rintro a b out ⟨⟩; rfl

theorem aluOr_keepsOverflow : KeepsOverflow aluOr := by rintro a b out ⟨⟩; rfl

theorem aluXor_keepsOverflow : KeepsOverflow aluXor := by rintro a b out ⟨⟩; rfl

/-! ## One instruction -/

/-- What an instruction can do to the flags: nothing, or the one write that it owns. -/
inductive FlagWrite (i : Instr) (f : Flags) : Flags → Prop
  | keeps : FlagWrite i f f
  | overflow (owner : i.writesOverflow = true) (v : Bool) : FlagWrite i f { f with overflow := v }
  | compare (owner : i.isCompare = true) (a b : Word) : FlagWrite i f (f.compare a b)
  | stop (owner : i = .exit) : FlagWrite i f { f with stop := true }

theorem FlagWrite.of_eq {i : Instr} {f g : Flags} (h : g = f) : FlagWrite i f g := h ▸ .keeps

/-- The two ALU forms, of an operation that leaves Overflow alone or of an instruction that owns it. -/
theorem FlagWrite.of_alu {i : Instr} {s u : State} {f : Word → Word → Except FaultCause AluOut}
    (hf : KeepsOverflow f ∨ i.writesOverflow = true)
    (h : ∃ a b out, f a b = .ok out ∧ u.flags = (s.setOverflow out.overflow).flags) :
    FlagWrite i s.flags u.flags := by
  obtain ⟨a, b, out, ho, e⟩ := h
  rw [e]
  cases hv : out.overflow with
  | none => exact .keeps
  | some v =>
    rcases hf with hk | owner
    · rw [hk a b out ho] at hv
      cases hv
    · exact .overflow owner v

/-- The body of an instruction writes no flag that the instruction does not own. -/
theorem bodyOf_flagWrite {i : Instr} {s u : State} (h : bodyOf i s = .ok u) : FlagWrite i s.flags u.flags := by
  cases i with
  | exit => cases h; exact .stop rfl
  | pushLit | pushReg | pushHeap => exact .of_eq (State.push_flags h)
  | popReg r =>
    obtain ⟨⟨v, w⟩, hp, h⟩ := Except.bind_eq_ok' h
    cases h
    exact .of_eq ((State.setReg_flags w r v).trans (State.pop_flags hp))
  | popHeap l =>
    obtain ⟨⟨v, w⟩, hp, h⟩ := Except.bind_eq_ok' h
    exact .of_eq ((State.memWrite_flags h).trans (State.pop_flags hp))
  | dup =>
    obtain ⟨v, -, h⟩ := Except.bind_eq_ok' h
    exact .of_eq (State.push_flags h)
  | movLitHeap | movRegHeap | movHeapHeap => exact .of_eq (State.memWrite_flags h)
  | movLitReg | movHeapReg | movRegReg | bitNotReg => cases h; exact .keeps
  | mathAddReg | mathSubReg | mathMulReg => exact .of_alu (.inr rfl) (State.regForm_flags h)
  | mathAddStack | mathSubStack | mathMulStack => exact .of_alu (.inr rfl) (State.stackForm_flags h)
  | mathDivReg ra rb => exact .of_alu (.inl aluDiv_keepsOverflow) (State.regForm_flags h)
  | mathDivStack => exact .of_alu (.inl aluDiv_keepsOverflow) (State.stackForm_flags h)
  | bitAndReg ra rb => exact .of_alu (.inl aluAnd_keepsOverflow) (State.regForm_flags h)
  | bitOrReg ra rb => exact .of_alu (.inl aluOr_keepsOverflow) (State.regForm_flags h)
  | bitXorReg ra rb => exact .of_alu (.inl aluXor_keepsOverflow) (State.regForm_flags h)
  | bitAndStack => exact .of_alu (.inl aluAnd_keepsOverflow) (State.stackForm_flags h)
  | bitOrStack => exact .of_alu (.inl aluOr_keepsOverflow) (State.stackForm_flags h)
  | bitXorStack => exact .of_alu (.inl aluXor_keepsOverflow) (State.stackForm_flags h)
  | bitNotStack =>
    obtain ⟨⟨v, w⟩, hp, h⟩ := Except.bind_eq_ok' h
    exact .of_eq ((State.push_flags h).trans (State.pop_flags hp))
  | cmpRegReg | cmpRegLit => cases h; exact .compare rfl _ _
  | cmpStackLit l =>
    obtain ⟨a, -, h⟩ := Except.bind_eq_ok' h
    cases h
    exact .compare rfl _ _
  | jmp | jmpEq | jmpNe | jmpGt | jmpSm | jmpOv => cases h; exact .of_eq (State.jumpIf_flags _ _ _)
  | syscall => cases h; exact .keeps

/-- No path of a `syscall`, a fault in a read's stores included, writes a flag. -/
theorem execSyscall_flags {s t : State} (h : exec .syscall s = .next t) : t.flags = s.flags := by
  have answered_flags (bytes later) : (s.answered bytes later).flags = s.flags := by simp [State.answered]
  rcases execSyscall_inv h with ⟨-, -, rfl⟩ | ⟨-, bytes, later, u, -, hu, rfl⟩ | ⟨-, bytes, later, -, -, rfl⟩ |
    ⟨-, e, rfl⟩ | ⟨-, rfl⟩
  · exact State.sendRead_flags s
  · exact (State.storeBytes_flags hu).trans (answered_flags bytes later)
  · exact answered_flags bytes later
  · rfl
  · rfl

/-- An instruction writes no flag that it does not own; a fault keeps the flags from before it (R325). -/
theorem exec_flagWrite {i : Instr} {s t : State} (h : exec i s = .next t) : FlagWrite i s.flags t.flags := by
  by_cases hi : i = .syscall
  · subst hi
    exact .of_eq (execSyscall_flags h)
  · rcases exec_inv hi h with ⟨u, hu, rfl⟩ | ⟨c, rfl⟩
    · have body := bodyOf_flagWrite hu
      exact body
    · exact .keeps

/-- Settles O48: of the writes an instruction can make, each is its owner's. -/
theorem flagsChangeOnlyByTheirOwners : Obligations.FlagsChangeOnlyByTheirOwners := by
  intro i s t h
  generalize t.flags = g, exec_flagWrite h = hw
  cases hw with
  | keeps => simp
  | overflow owner v => simp [owner]
  | compare owner a b => simp [owner]
  | stop owner => simp [owner]

end Sys2Proof.Machine
end

section
/-! What one transition can do (40_control R140, R145, 70_reset_and_hazards R363), said once, and from it the two
capacities (20_memory R67, R70, R72): growth in `memWrite` and `push` is the only write to them outside reset. -/

namespace Sys2Proof.Machine

/-! ## One transition, by its cases -/

/-- Everything the header parse can do: the scan's state, or the fault entered from the state before. -/
theorem State.parseHeader_inv {s t : State} (h : s.parseHeader = .next t) :
    s.scanHeader 0 s.image = .ok t ∨ ∃ c, s.scanHeader 0 s.image = .error c ∧ t = s.enterFault c 0#32 := by
  unfold State.parseHeader at h
  split at h
  · cases hs : s.scanHeader 0 s.image with
    | ok u => simp only [hs] at h; cases h; exact .inl rfl
    | error c => simp only [hs] at h; cases h; exact .inr ⟨c, rfl, rfl⟩
  · cases h

/-- Everything fetch, decode and execute can do: a decoded instruction's meaning, the undefined opcode's no-op, or a
fault of the fetch. -/
theorem State.runInstruction_inv {s t : State} (h : s.runInstruction = .next t) :
    (∃ i rest, s.fetchDecode = .instr i rest ∧ exec i s = .next t) ∨
    (∃ b rest, s.fetchDecode = .noOp b rest ∧ t = { s with pc := s.pc + 1#32 }) ∨
    (s.fetchDecode = .outOfBounds ∧ t = s.enterFault .fetchOutOfBounds s.pc) ∨
    (s.fetchDecode = .illegalRegister ∧ t = s.enterFault .illegalRegister s.pc) := by
  unfold State.runInstruction at h
  cases hd : s.fetchDecode with
  | instr i rest => simp only [hd] at h; exact .inl ⟨i, rest, rfl, h⟩
  | noOp b rest => simp only [hd] at h; cases h; exact .inr (.inl ⟨b, rest, rfl, rfl⟩)
  | outOfBounds => simp only [hd] at h; cases h; exact .inr (.inr (.inl ⟨rfl, rfl⟩))
  | illegalRegister => simp only [hd] at h; cases h; exact .inr (.inr (.inr ⟨rfl, rfl⟩))

/-- The transitions, one per phase, and in `Run` the Stop test before the fetch. -/
theorem step_inv {s t : State} (h : step s = .next t) :
    (s.phase = .reset ∧ t = s.start) ∨
    (s.phase = .header ∧ s.parseHeader = .next t) ∨
    (s.phase = .run ∧ s.flags.stop = true ∧ t = { s with phase := .halted }) ∨
    (s.phase = .run ∧ s.flags.stop = false ∧ s.runInstruction = .next t) ∨
    (s.phase = .halted ∧ t = s) := by
  unfold step at h
  cases hp : s.phase with
  | reset => simp only [hp] at h; cases h; exact .inl ⟨rfl, rfl⟩
  | header => simp only [hp] at h; exact .inr (.inl ⟨rfl, h⟩)
  | run =>
    cases hs : s.flags.stop with
    | true => simp only [hp, hs, if_true] at h; cases h; exact .inr (.inr (.inl ⟨rfl, rfl, rfl⟩))
    | false => simp only [hp, hs] at h; exact .inr (.inr (.inr (.inl ⟨rfl, rfl, h⟩)))
  | halted => simp only [hp] at h; cases h; exact .inr (.inr (.inr (.inr ⟨rfl, rfl⟩)))

/-! ## The capacities -/

/-- Neither capacity of the second state is below the first's. -/
def CapacitiesLe (s t : State) : Prop := s.hcap ≤ t.hcap ∧ s.scap ≤ t.scap

theorem CapacitiesLe.of_eq {s t : State} (hh : t.hcap = s.hcap) (hs : t.scap = s.scap) : CapacitiesLe s t :=
  ⟨hh.ge, hs.ge⟩

/-- A fault keeps both capacities: what the instruction grew is discarded (R325). -/
theorem State.enterFault_capacitiesLe (s : State) (c : FaultCause) (p : Word) : CapacitiesLe s (s.enterFault c p) :=
  .of_eq (s.enterFault_hcap c p) (s.enterFault_scap c p)

@[simp] theorem State.answered_hcap (s : State) (bytes : List Byte) (later : List (List Byte)) :
    (s.answered bytes later).hcap = s.hcap := by simp [State.answered]

@[simp] theorem State.answered_scap (s : State) (bytes : List Byte) (later : List (List Byte)) :
    (s.answered bytes later).scap = s.scap := by simp [State.answered]

/-- Storing a run of cells can raise the heap's capacity and leaves the stack's. -/
theorem State.storeBytes_capacitiesLe {s u : State} {a : Word} {bs : List Byte} (h : s.storeBytes a bs = .ok u) :
    CapacitiesLe s u := by
  obtain ⟨e, hle⟩ := State.storeBytes_inv h
  exact ⟨hle, by rw [e]⟩

/-- The header copy can raise the heap's capacity and leaves the stack's. -/
theorem State.scanHeader_capacitiesLe {s u : State} {i : Nat} {bs : List Byte} (h : s.scanHeader i bs = .ok u) :
    CapacitiesLe s u := by
  obtain ⟨e, hle⟩ := State.scanHeader_inv h
  exact ⟨hle, by rw [e]⟩

/-- Of the ways of a `syscall` only a read with its reply at hand can raise a capacity. -/
theorem execSyscall_capacitiesLe {s t : State} (h : exec .syscall s = .next t) : CapacitiesLe s t := by
  rcases execSyscall_inv h with ⟨-, -, rfl⟩ | ⟨-, bytes, later, u, -, hu, rfl⟩ | ⟨-, bytes, later, -, -, rfl⟩ |
    ⟨-, e, rfl⟩ | ⟨-, rfl⟩
  · exact .of_eq s.sendRead_hcap s.sendRead_scap
  · simpa [CapacitiesLe] using State.storeBytes_capacitiesLe hu
  · exact .of_eq (s.answered_hcap bytes later) (s.answered_scap bytes later)
  · exact .of_eq rfl rfl
  · exact .of_eq rfl rfl

/-- No instruction lowers a capacity, whether it completes, waits or faults. -/
theorem exec_capacitiesLe {i : Instr} {s t : State} (h : exec i s = .next t) : CapacitiesLe s t := by
  by_cases hi : i = .syscall
  · subst hi
    exact execSyscall_capacitiesLe h
  · rcases exec_inv hi h with ⟨u, hu, rfl⟩ | ⟨c, rfl⟩
    · have frame := bodyOf_frame hu
      exact ⟨frame.hcap, frame.scap⟩
    · exact s.enterFault_capacitiesLe c s.pc

theorem State.parseHeader_capacitiesLe {s t : State} (h : s.parseHeader = .next t) : CapacitiesLe s t := by
  rcases State.parseHeader_inv h with hs | ⟨c, -, rfl⟩
  · exact State.scanHeader_capacitiesLe hs
  · exact s.enterFault_capacitiesLe c 0#32

theorem State.runInstruction_capacitiesLe {s t : State} (h : s.runInstruction = .next t) : CapacitiesLe s t := by
  rcases State.runInstruction_inv h with ⟨i, rest, -, hx⟩ | ⟨b, rest, -, rfl⟩ | ⟨-, rfl⟩ | ⟨-, rfl⟩
  · exact exec_capacitiesLe hx
  · exact .of_eq rfl rfl
  · exact s.enterFault_capacitiesLe _ s.pc
  · exact s.enterFault_capacitiesLe _ s.pc

theorem step_capacitiesLe {s t : State} (h : step s = .next t) : CapacitiesLe s t := by
  rcases step_inv h with ⟨-, rfl⟩ | ⟨-, hp⟩ | ⟨-, -, rfl⟩ | ⟨-, -, hr⟩ | ⟨-, rfl⟩
  · exact .of_eq s.start_hcap s.start_scap
  · exact State.parseHeader_capacitiesLe hp
  · exact .of_eq rfl rfl
  · exact State.runInstruction_capacitiesLe hr
  · exact .of_eq rfl rfl

/-- An accepted load writes the image alone (R14), so neither capacity. -/
theorem State.load_capacities {s t : State} {image : List Byte} (h : s.load image = .next t) :
    t.hcap = s.hcap ∧ t.scap = s.scap := by
  obtain ⟨-, -, rfl⟩ := State.load_inv h
  exact ⟨rfl, rfl⟩

/-- Settles O51: by the cases of a step, and for the host's inputs by the one field each writes. -/
theorem capacitiesNeverShrink : Obligations.CapacitiesNeverShrink :=
  ⟨fun _ _ => step_capacitiesLe, fun s =>
    ⟨⟨s.start_hcap, s.start_scap⟩, fun bytes => ⟨s.hostReply_hcap bytes, s.hostReply_scap bytes⟩,
      fun _ _ => State.load_capacities⟩⟩

end Sys2Proof.Machine
end

section
/-! What decoding can reject a register byte for (30_encoding R102, R104), the opcode bytes without an instruction
(R110), and the step that either leads to (40_control R144, R148). -/

namespace Sys2Proof

/-! ## Register bytes -/

theorem Reg.ofByte_eq_none_of_four_le {b : Byte} (h : 4 ≤ b.toNat) : Reg.ofByte b = none := by
  rw [Reg.ofByte_eq_none, regByteValid, decide_eq_false_iff_not]
  omega

theorem Reg.exists_ofByte_of_lt_four {b : Byte} (h : b.toNat < 4) : ∃ r, Reg.ofByte b = some r := by
  rw [← Option.ne_none_iff_exists', Ne, Reg.ofByte_eq_none, regByteValid, decide_eq_false_iff_not]
  omega

theorem withReg_of_ofByte_none {b : Byte} (h : Reg.ofByte b = none) (bs : List Byte)
    (k : Reg → List Byte → Decoded) : withReg (b :: bs) k = .illegalRegister := by
  simp only [withReg, h]

theorem withReg_of_ofByte_some {b : Byte} {r : Reg} (h : Reg.ofByte b = some r) (bs : List Byte)
    (k : Reg → List Byte → Decoded) : withReg (b :: bs) k = k r bs := by
  simp only [withReg, h]

/-! ## The operand readers of a format (R104) -/

theorem decodeOperands_reads_reg_first {op : Op} (h : op.format = .r ∨ op.format = .rr ∨ op.format = .rl) :
    ∃ k, ∀ bs, decodeOperands op bs = withReg bs k := by
  cases op <;> simp [Op.format] at h <;> exact ⟨_, fun _ => rfl⟩

theorem decodeOperands_reads_reg_reg {op : Op} (h : op.format = .rr) :
    ∃ k : Reg → Reg → List Byte → Decoded, ∀ bs, decodeOperands op bs = withReg bs fun r bs => withReg bs (k r) := by
  cases op <;> simp [Op.format] at h <;> exact ⟨_, fun _ => rfl⟩

theorem decodeOperands_reads_lit_reg {op : Op} (h : op.format = .lr) :
    ∃ k : Word → Reg → List Byte → Decoded, ∀ bs, decodeOperands op bs = withLit bs fun l bs => withReg bs (k l) := by
  cases op <;> simp [Op.format] at h
  case movRegHeap => exact ⟨fun l r bs => .instr (.movRegHeap l r) bs, fun _ => rfl⟩

/-! ## A register byte that names no register, in each operand position -/

section
variable {op : Op} {b : Byte} (hb : Reg.ofByte b = none) (rest : List Byte)
include hb

theorem decodeOperands_illegal_first (hf : op.format = .r ∨ op.format = .rr ∨ op.format = .rl) :
    decodeOperands op (b :: rest) = .illegalRegister := by
  obtain ⟨k, hk⟩ := decodeOperands_reads_reg_first hf
  rw [hk, withReg_of_ofByte_none hb]

theorem decodeOperands_illegal_second {b1 : Byte} (hf : op.format = .rr) (h1 : b1.toNat < 4) :
    decodeOperands op (b1 :: b :: rest) = .illegalRegister := by
  obtain ⟨k, hk⟩ := decodeOperands_reads_reg_reg hf
  obtain ⟨r, hr⟩ := Reg.exists_ofByte_of_lt_four h1
  rw [hk, withReg_of_ofByte_some hr, withReg_of_ofByte_none hb]

theorem decodeOperands_illegal_after_lit (l0 l1 l2 l3 : Byte) (hf : op.format = .lr) :
    decodeOperands op (l0 :: l1 :: l2 :: l3 :: b :: rest) = .illegalRegister := by
  obtain ⟨k, hk⟩ := decodeOperands_reads_lit_reg hf
  rw [hk, withLit, withReg_of_ofByte_none hb]

end

/-! ## The opcode byte -/

theorem decode_of_find_some {m : OpcodeMap} {o : Byte} {op : Op} (h : m.find o = some op) (bs : List Byte) :
    decode m (o :: bs) = decodeOperands op bs := by
  simp only [decode, h]

theorem decode_of_find_none {m : OpcodeMap} {o : Byte} (h : m.find o = none) (bs : List Byte) :
    decode m (o :: bs) = .noOp o bs := by
  simp only [decode, h]

/-- The two byte lists of the spec complement each other: R108 names exactly the bytes that R110 does not. -/
theorem defaultOpcodeMap_find_eq_none_iff (b : Byte) :
    defaultOpcodeMap.find b = none ↔ undefinedInR110 b = true := by
  revert b
  decide

theorem undefinedInR110_count :
    ((List.range 256).filter fun n => undefinedInR110 (BitVec.ofNat 8 n)).length = 217 := by
  rfl

end Sys2Proof

namespace Sys2Proof.Machine

/-! ## The step of a running block, by what the fetch decodes to -/

section
variable {s : State} (hp : s.phase = .run) (hs : s.flags.stop = false)
include hp hs

theorem step_eq_runInstruction : step s = s.runInstruction := by
  simp [step, hp, hs]

theorem step_of_noOp {o : Byte} {rest : List Byte} (h : s.fetchDecode = .noOp o rest) :
    step s = .next { s with pc := s.pc + 1 } := by
  rw [step_eq_runInstruction hp hs, State.runInstruction, h]
  rfl

theorem step_of_illegalRegister (h : s.fetchDecode = .illegalRegister) : FaultsWith s (step s) 3 := by
  rw [step_eq_runInstruction hp hs, State.runInstruction, h]
  rfl

/-- An opcode whose operand bytes are rejected for a register faults at the opcode's address. -/
theorem step_of_illegal_operands {o : Byte} {op : Op} {bs : List Byte} (ho : s.params.opcodeMap.find o = some op)
    (hw : s.fetchBytes maxLength s.pc = o :: bs) (h : decodeOperands op bs = .illegalRegister) :
    FaultsWith s (step s) 3 :=
  step_of_illegalRegister hp hs (by rw [State.fetchDecode, hw, decode_of_find_some ho, h])

end

/-- The window at the pc starts with the opcode fetched there. -/
theorem State.fetchBytes_eq_cons {s : State} {o : Byte} (h : s.imgFetch s.pc = some o) :
    ∃ rest, s.fetchBytes maxLength s.pc = o :: rest :=
  List.head?_eq_some_iff.1 ((s.fetchBytes_head 8 s.pc).trans h)

/-- Settles O6: every format with a register operand reads it with `withReg`, which rejects the byte as soon as it is
fetched, so the step is the fault of that rejection in each of the three positions. -/
theorem invalidRegisterByteFaults : Obligations.InvalidRegisterByteFaults := by
  refine ⟨⟨rfl, rfl, rfl, rfl⟩, fun s o b op rest hp hs ho hb => ?_⟩
  have hnone := Reg.ofByte_eq_none_of_four_le hb
  refine ⟨?first, ?second, ?afterLiteral⟩
  case first =>
    intro hf hw
    exact step_of_illegal_operands hp hs ho hw (decodeOperands_illegal_first hnone rest hf)
  case second =>
    intro b1 hf h1 hw
    exact step_of_illegal_operands hp hs ho hw (decodeOperands_illegal_second hnone rest hf h1)
  case afterLiteral =>
    intro l0 l1 l2 l3 hf hw
    exact step_of_illegal_operands hp hs ho hw (decodeOperands_illegal_after_lit hnone rest l0 l1 l2 l3 hf)

/-- Settles O5: the bytes of R110 are those the map of R108 leaves out, and a byte the map leaves out decodes to the
no-op. -/
theorem undefinedOpcodeOnlyAdvancesPc : Obligations.UndefinedOpcodeOnlyAdvancesPc := by
  refine ⟨defaultOpcodeMap_find_eq_none_iff, undefinedInR110_count, fun s b hp hs hm hb hu => ?_⟩
  obtain ⟨rest, hw⟩ := State.fetchBytes_eq_cons hb
  have hd : s.fetchDecode = .noOp b rest := by
    rw [State.fetchDecode, hm, hw, decode_of_find_none ((defaultOpcodeMap_find_eq_none_iff b).2 hu)]
  exact step_of_noOp hp hs hd

end Sys2Proof.Machine
end

section
/-! The fetch that runs past the end of the image (40_control R144) and the Stop test before every fetch (R140). A
decoder that is given only part of an instruction's operand bytes runs out of bytes, whichever part it is. -/

namespace Sys2Proof

/-! ## Operand bytes cut short -/

/-- Given these bytes up to any place before their end, the reader misses a byte and rejects nothing sooner. -/
def RunsOut (read : List Byte → Decoded) (bytes : List Byte) : Prop :=
  ∀ n, n < bytes.length → read (bytes.take n) = .outOfBounds

theorem RunsOut.nil {read : List Byte → Decoded} : RunsOut read [] := fun n h => absurd h n.not_lt_zero

/-- A register operand in front: either its own byte is missing, or the byte is read and the rest is cut short. -/
theorem RunsOut.reg {k : Reg → List Byte → Decoded} {r : Reg} {bytes : List Byte} (h : RunsOut (k r) bytes) :
    RunsOut (fun bs => withReg bs k) (r.toByte :: bytes) := by
  intro n hn
  cases n with
  | zero => rfl
  | succ n =>
    rw [List.length_cons] at hn
    exact (withReg_toByte r _ k).trans (h n (by omega))

theorem withLit_of_length_lt {bs : List Byte} (h : bs.length < 4) (k : Word → List Byte → Decoded) :
    withLit bs k = .outOfBounds := by
  rcases withLit_inv (rfl : withLit bs k = _) with ⟨-, hd⟩ | ⟨w, rest, rfl, -⟩
  · exact hd
  · rw [List.length_append, litBytes_length] at h
    omega

/-- A literal operand in front: either one of its four bytes is missing, or they are read and the rest is cut short. -/
theorem RunsOut.lit {k : Word → List Byte → Decoded} {w : Word} {bytes : List Byte} (h : RunsOut (k w) bytes) :
    RunsOut (fun bs => withLit bs k) (litBytes w ++ bytes) := by
  intro n hn
  rw [List.length_append, litBytes_length] at hn
  by_cases h4 : n < 4
  · exact withLit_of_length_lt (by rw [List.length_take]; omega) k
  · rw [List.take_append, litBytes_length, List.take_of_length_le (by rw [litBytes_length]; omega)]
    exact (withLit_litBytes w _ k).trans (h (n - 4) (by omega))

theorem RunsOut.lit_last {k : Word → List Byte → Decoded} {w : Word} :
    RunsOut (fun bs => withLit bs k) (litBytes w) := by
  rw [← List.append_nil (litBytes w)]
  exact .lit .nil

/-- Every format reads its operands one after the other (R104, R105), so each runs out where the bytes end. -/
theorem decodeOperands_runsOut (i : Instr) : RunsOut (fun bs => decodeOperands i.op bs) (operandBytes i) := by
  cases i <;> dsimp only [Instr.op, decodeOperands, operandBytes]
  case exit | dup | mathAddStack | mathSubStack | mathMulStack | mathDivStack | bitNotStack | bitAndStack
    | bitOrStack | bitXorStack | syscall => exact .nil
  case pushReg | popReg | bitNotReg => exact .reg .nil
  case movRegReg | mathAddReg | mathSubReg | mathMulReg | mathDivReg | bitAndReg | bitOrReg | bitXorReg
    | cmpRegReg => exact .reg (.reg .nil)
  case pushLit | pushHeap | popHeap | cmpStackLit | jmp | jmpEq | jmpNe | jmpGt | jmpSm | jmpOv =>
    exact .lit_last
  case movLitReg | movHeapReg | cmpRegLit => exact .reg .lit_last
  case movRegHeap => exact .lit (.reg .nil)
  case movLitHeap | movHeapHeap => exact .lit .lit_last

end Sys2Proof

namespace Sys2Proof.Machine

/-! ## The window at the end of the image -/

theorem State.fetchBytes_of_past_image {s : State} {p : Word} (h : s.image.length ≤ p.toNat + s.hs.toNat) (n : Nat) :
    s.fetchBytes (n + 1) p = [] := by
  rw [← List.head?_eq_none_iff, State.fetchBytes_head, State.imgFetch, List.getElem?_eq_none h]

theorem State.fetchDecode_of_past_image {s : State} (h : s.image.length ≤ s.pc.toNat + s.hs.toNat) :
    s.fetchDecode = .outOfBounds := by
  rw [State.fetchDecode, maxLength, State.fetchBytes_of_past_image h, decode]

/-- The window may hold fewer operand bytes than the image: no more than `k` of them is all that matters. -/
theorem State.fetchDecode_of_operands_cut {s : State} {o : Byte} {i : Instr} {k : Nat}
    (ho : s.params.opcodeMap.find o = some i.op) (hL : imageLengthOk s.image.length = true)
    (hk : k < (operandBytes i).length)
    (himg : s.image.drop (s.pc.toNat + s.hs.toNat) = o :: (operandBytes i).take k) :
    s.fetchDecode = .outOfBounds := by
  have hw : s.fetchBytes maxLength s.pc = o :: (operandBytes i).take (min 8 k) := by
    rw [State.fetchBytes_eq_take s maxLength s.pc hL, himg, maxLength, List.take_succ_cons, List.take_take]
  rw [State.fetchDecode, hw, decode_of_find_some ho]
  exact decodeOperands_runsOut i (min 8 k) (by omega)

/-! ## The step of a running block -/

theorem step_of_stop {s : State} (hp : s.phase = .run) (hs : s.flags.stop = true) :
    step s = .next { s with phase := .halted } := by
  simp only [step, hp, hs, if_true]

theorem step_of_outOfBounds {s : State} (hp : s.phase = .run) (hs : s.flags.stop = false)
    (h : s.fetchDecode = .outOfBounds) : FaultsWith s (step s) 2 := by
  rw [step_eq_runInstruction hp hs, State.runInstruction, h]
  rfl

/-- Settles O7: the window at the pc is empty, or holds an opcode and a part of its operand bytes; the decoder runs
out of bytes in both. -/
theorem fetchPastTheImageFaults : Obligations.FetchPastTheImageFaults := by
  intro s hp hs
  refine ⟨?opcode, ?operand⟩
  case opcode =>
    intro hpast
    exact step_of_outOfBounds hp hs (State.fetchDecode_of_past_image hpast)
  case operand =>
    intro o i k ho hL hk himg
    exact step_of_outOfBounds hp hs (State.fetchDecode_of_operands_cut ho hL hk himg)

/-- Settles O43: the two values of Stop in the step of a running block. -/
theorem stopHaltsBeforeTheFetch : Obligations.StopHaltsBeforeTheFetch :=
  fun _ hp => ⟨step_of_stop hp, step_eq_runInstruction hp⟩

end Sys2Proof.Machine
end

section
/-! The arithmetic instructions (43_arithmetic R210, R212, R213): what the ALU answers, in numbers, and what the
register form and the stack form make of any answer of an ALU operation. -/

namespace Sys2Proof.Machine

/-! ## The ALU, in numbers -/

theorem aluAdd_eq (a b : Word) :
    aluAdd a b = .ok ⟨BitVec.ofNat 32 (a.toNat + b.toNat), some (decide (4294967295 < a.toNat + b.toNat))⟩ := by
  have value : a + b = BitVec.ofNat 32 (a.toNat + b.toNat) := by simp [BitVec.ofNat_add]
  rw [aluAdd, value, addOverflows]

theorem aluSub_eq (a b : Word) :
    aluSub a b =
      .ok ⟨BitVec.ofInt 32 ((a.toNat : Int) - b.toNat), some (decide ((a.toNat : Int) - b.toNat < 0))⟩ := by
  have value : a - b = BitVec.ofInt 32 ((a.toNat : Int) - b.toNat) := by
    simp [Int.sub_eq_add_neg, BitVec.ofInt_add, BitVec.ofInt_neg, BitVec.sub_eq_add_neg]
  have below : a.toNat < b.toNat ↔ (a.toNat : Int) - b.toNat < 0 := by omega
  rw [aluSub, value, subOverflows, decide_eq_decide.2 below]

theorem aluMul_eq (a b : Word) :
    aluMul a b = .ok ⟨BitVec.ofNat 32 (a.toNat * b.toNat), some (decide (4294967295 < a.toNat * b.toNat))⟩ := by
  have value : a * b = BitVec.ofNat 32 (a.toNat * b.toNat) := by simp [BitVec.ofNat_mul]
  rw [aluMul, value, mulOverflows]

theorem aluDiv_of_ne_zero (a : Word) {b : Word} (h : b ≠ 0) :
    aluDiv a b = .ok ⟨BitVec.ofNat 32 (a.toNat / b.toNat), none⟩ := by
  have value : a / b = BitVec.ofNat 32 (a.toNat / b.toNat) := by
    rw [← BitVec.toNat_udiv, BitVec.ofNat_toNat, BitVec.setWidth_eq]
  have nonzero : b ≠ 0#32 := h
  rw [aluDiv, if_neg nonzero, value]

theorem aluDiv_zero (a : Word) : aluDiv a 0 = .error .divideByZero := rfl

/-! ## The frame around a body that raises, and around one that writes a register -/

/-- A body that raises is a fault at the instruction with the cause's code, whatever it had written. -/
theorem State.complete_faultsWith {s : State} {n : Nat} {body : State → Except FaultCause State} {c : FaultCause}
    (h : body { s with pc := s.pc + BitVec.ofNat 32 n } = .error c) : FaultsWith s (s.complete n body) c.code :=
  State.complete_error h

/-- A body that ends in a register write: what it did before, registers and cells left alone, is the rest of the
effect. -/
theorem State.complete_setReg {s u : State} {n : Nat} {body : State → Except FaultCause State} {rd : Reg} {v : Word}
    (h : body { s with pc := s.pc + BitVec.ofNat 32 n } = .ok (u.setReg rd v)) (hregs : ∀ r, u.reg r = s.reg r)
    (hheap : SameHeap s u) : CompletesWritingReg s (s.complete n body) rd v { u with pc := u.pc + 1#32 } := by
  refine ⟨_, State.complete_ok h, ?value, ?otherRegs, hheap, rfl⟩
  case value => exact (u.reg_setReg rd rd v).trans (if_pos rfl)
  case otherRegs =>
    intro r hr
    exact ((u.reg_setReg rd r v).trans (if_neg hr)).trans (hregs r)

/-! ## The two operand forms of an instruction -/

theorem State.setOverflow_eq (s : State) (o : Option Bool) :
    s.setOverflow o = { s with flags := { s.flags with overflow := o.getD s.flags.overflow } } := by
  cases o <;> rfl

section
variable {s : State} {f : Word → Word → Except FaultCause AluOut} {out : AluOut} {c : FaultCause}

/-- Also where the two registers are one: the ALU's answer is that of the operands before the write (R211). -/
theorem State.complete_regForm {ra rb : Reg} (h : f (s.reg ra) (s.reg rb) = .ok out) :
    CompletesWritingReg s (s.complete 2 fun u => u.regForm f ra rb) ra out.value
      { s with flags := { s.flags with overflow := out.overflow.getD s.flags.overflow }, pc := s.pc + 3 } := by
  have body := State.regForm_ok (s := { s with pc := s.pc + 2#32 }) h
  rw [State.setOverflow_eq] at body
  have hpc : s.pc + 2#32 + 1#32 = s.pc + 3 := by bv_omega
  rw [← hpc]
  have completes := State.complete_setReg (s := s) (n := 2) (body := fun u => u.regForm f ra rb) body
    (fun _ => rfl) ⟨rfl, fun _ => rfl⟩
  exact completes

theorem State.complete_regForm_error {ra rb : Reg} (h : f (s.reg ra) (s.reg rb) = .error c) :
    FaultsWith s (s.complete 2 fun u => u.regForm f ra rb) c.code :=
  State.complete_faultsWith (State.regForm_error (s := { s with pc := s.pc + 2#32 }) h)

variable {a b : Word} {rest : List Word}

/-- The push after the two pops finds room, so the capacity stays. -/
theorem State.complete_stackForm (hs : s.stack = b :: a :: rest) (hf : s.StackFits) (h : f a b = .ok out) :
    CompletesKeepingHeap s (s.complete 0 fun u => u.stackForm f)
      { s with stack := out.value :: rest,
               flags := { s.flags with overflow := out.overflow.getD s.flags.overflow }, pc := s.pc + 1 } := by
  have body := State.stackForm_ok (s := { s with pc := s.pc + 0#32 }) hs hf h
  rw [State.setOverflow_eq] at body
  have hpc : s.pc + 0#32 + 1#32 = s.pc + 1 := by bv_omega
  rw [← hpc]
  have next := State.complete_ok (s := s) (n := 0) (body := fun u => u.stackForm f) body
  exact ⟨next, rfl, fun _ => rfl⟩

theorem State.complete_stackForm_error (hs : s.stack = b :: a :: rest) (h : f a b = .error c) :
    FaultsWith s (s.complete 0 fun u => u.stackForm f) c.code :=
  State.complete_faultsWith (State.stackForm_error (s := { s with pc := s.pc + 0#32 }) hs h)

end

/-! ## The instructions -/

/-- Settles O23: each instruction is one of the two forms around an ALU operation, whose answer in numbers is the
exact result modulo 2^32 and the test of R210. -/
theorem addSubMulComplete : Obligations.AddSubMulComplete := by
  refine ⟨?registers, ?stack⟩
  case registers =>
    rintro s ra rb _ _ rfl rfl
    exact ⟨State.complete_regForm (aluAdd_eq _ _), State.complete_regForm (aluSub_eq _ _),
      State.complete_regForm (aluMul_eq _ _)⟩
  case stack =>
    rintro s x y rest _ _ hs hf rfl rfl
    exact ⟨State.complete_stackForm hs hf (aluAdd_eq x y), State.complete_stackForm hs hf (aluSub_eq x y),
      State.complete_stackForm hs hf (aluMul_eq x y)⟩

/-- Settles O24: the same two forms around the division, by whether the divisor is 0. -/
theorem divideCompletesOrFaults : Obligations.DivideCompletesOrFaults := by
  refine ⟨fun s ra rb => ⟨?quotient, ?divisorZero⟩, fun s a b rest hs => ⟨?stackQuotient, ?stackDivisorZero⟩⟩
  case quotient =>
    intro hb
    exact ⟨State.complete_regForm (aluDiv_of_ne_zero (s.reg ra) hb), Nat.div_le_self _ _⟩
  case divisorZero =>
    intro hb
    exact State.complete_regForm_error (hb ▸ aluDiv_zero (s.reg ra))
  case stackQuotient =>
    intro hb hf
    exact State.complete_stackForm hs hf (aluDiv_of_ne_zero a hb)
  case stackDivisorZero =>
    rintro rfl
    exact State.complete_stackForm_error hs (aluDiv_zero a)

end Sys2Proof.Machine
end

section
/-! The bitwise register forms (44_bitwise R240): the complement as a subtraction, and the register form around an ALU
operation that owns no flag. -/

namespace Sys2Proof.Machine

/-- R240 gives the complement twice: every bit inverted, and `0xFFFFFFFF` minus the operand. -/
theorem aluNot_eq_sub (a : Word) : aluNot a = 0xFFFFFFFF - a := by
  have allOnes : (0xFFFFFFFF : Word) = BitVec.allOnes 32 := by decide
  rw [aluNot, allOnes, BitVec.allOnes_sub_eq_not]

theorem aluNot_getLsbD (a : Word) {k : Nat} (hk : k < 32) : (aluNot a).getLsbD k = !a.getLsbD k := by
  rw [aluNot, BitVec.getLsbD_not, decide_eq_true hk, Bool.true_and]

/-- The only bitwise form with one operand byte: its result is written over its operand. -/
theorem exec_bitNotReg (s : State) (r : Reg) :
    CompletesWritingReg s (exec (.bitNotReg r) s) r (aluNot (s.reg r)) { s with pc := s.pc + 2 } := by
  have hpc : s.pc + 1#32 + 1#32 = s.pc + 2 := by bv_omega
  rw [← hpc]
  have completes := State.complete_setReg (s := s) (u := { s with pc := s.pc + 1#32 }) (n := 1)
    (body := fun u => .ok (u.setReg r (aluNot (u.reg r)))) rfl (fun _ => rfl) ⟨rfl, fun _ => rfl⟩
  exact completes

/-- Where the ALU operation owns no flag, the register form leaves all the flags as they are (R32). -/
theorem State.complete_regForm_keepsFlags {s : State} {f : Word → Word → Except FaultCause AluOut} {v : Word}
    {ra rb : Reg} (h : f (s.reg ra) (s.reg rb) = .ok ⟨v, none⟩) :
    CompletesWritingReg s (s.complete 2 fun u => u.regForm f ra rb) ra v { s with pc := s.pc + 3 } :=
  State.complete_regForm h

/-- Settles O26: each instruction writes the word operation's result, whose bits are those of R240. -/
theorem bitwiseRegisterFormsComplete : Obligations.BitwiseRegisterFormsComplete := by
  intro s ra rb
  refine ⟨?notValue, ⟨_, exec_bitNotReg s ra, ?notBits⟩,
    ⟨s.reg ra &&& s.reg rb, State.complete_regForm_keepsFlags (f := aluAnd) rfl, ?andBits⟩,
    ⟨s.reg ra ||| s.reg rb, State.complete_regForm_keepsFlags (f := aluOr) rfl, ?orBits⟩,
    ⟨s.reg ra ^^^ s.reg rb, State.complete_regForm_keepsFlags (f := aluXor) rfl, ?xorBits⟩⟩
  case notValue => exact aluNot_eq_sub (s.reg ra) ▸ exec_bitNotReg s ra
  case notBits => exact fun _ hk => aluNot_getLsbD (s.reg ra) hk
  case andBits => exact fun _ => BitVec.getLsbD_and
  case orBits => exact fun _ => BitVec.getLsbD_or
  case xorBits => exact fun _ => BitVec.getLsbD_xor

end Sys2Proof.Machine
end

section
/-! The comparison's flags (45_compare R260): words are equal as their numbers are, and the order of numbers is
trichotomous. -/

namespace Sys2Proof.Machine

/-- The model tests `Equal` on the words, R260 on their numbers. -/
theorem Flags.compare_eq_toNat (f : Flags) (a b : Word) :
    f.compare a b = { f with
      equal := decide (a.toNat = b.toNat), notEqual := decide (a.toNat ≠ b.toNat),
      greater := decide (b.toNat < a.toNat), smaller := decide (a.toNat < b.toNat) } := by
  simp only [Flags.compare, ne_eq, BitVec.toNat_inj]

theorem Flags.compare_notEqual_eq_not_equal (f : Flags) (a b : Word) :
    (f.compare a b).notEqual = !(f.compare a b).equal :=
  decide_not

/-- One case for each outcome of `Nat.lt_trichotomy`. -/
theorem Flags.compare_trichotomy (f : Flags) (a b : Word) :
    let g := f.compare a b
    (g.equal = false ∧ g.greater = false ∧ g.smaller = true) ∨
      (g.equal = true ∧ g.greater = false ∧ g.smaller = false) ∨
      (g.equal = false ∧ g.greater = true ∧ g.smaller = false) := by
  rw [Flags.compare_eq_toNat]
  refine (Nat.lt_trichotomy a.toNat b.toNat).imp ?smaller (Or.imp ?equal ?greater)
  case smaller => exact fun h => by simp [h, h.ne, h.not_gt]
  case equal => exact fun h => by simp [h]
  case greater => exact fun h => by simp [h, h.ne', h.not_gt]

/-- Settles O28: the flags as tests on numbers, and the trichotomy of their order. -/
theorem compareWritesTheOrderingFlags : Obligations.CompareWritesTheOrderingFlags := by
  refine ⟨Flags.compare_eq_toNat, ?exactlyOne⟩
  rintro f a b _ rfl
  have opposite := Flags.compare_notEqual_eq_not_equal f a b
  obtain ⟨he, hg, hs⟩ | ⟨he, hg, hs⟩ | ⟨he, hg, hs⟩ := Flags.compare_trichotomy f a b <;>
    simp only [he, hg, hs, opposite] <;> decide

end Sys2Proof.Machine
end

section
/-! The jumps (46_jump R280): the frame's `+ 1` undoes the `- 1` of a taken jump, also where the target is 0. -/

namespace Sys2Proof.Machine

/-- A jump writes the pc and nothing else. -/
theorem State.jumpIf_eq (s : State) (c : Bool) (t : Word) :
    s.jumpIf c t = { s with pc := if c then t - 1#32 else s.pc } := by
  cases c <;> rfl

/-- The next-pc multiplexer of R280, with the jump's condition a function of the flags: none of the six is read from
anything else. -/
theorem State.complete_jumpIf (s : State) (cond : Flags → Bool) (t : Word) :
    CompletesKeepingHeap s (s.complete 4 fun u => .ok (u.jumpIf (cond u.flags) t))
      { s with pc := if cond s.flags then t else s.pc + 5 } := by
  have next := State.complete_ok (s := s) (n := 4) (body := fun u => .ok (u.jumpIf (cond u.flags) t)) rfl
  have taken : t - 1#32 + 1#32 = t := BitVec.sub_add_cancel t 1#32
  have notTaken : s.pc + 4#32 + 1#32 = s.pc + 5 := by bv_omega
  refine ⟨next.trans ?_, rfl, fun _ => rfl⟩
  rw [State.jumpIf_eq, apply_ite (· + 1#32), taken, notTaken]

/-- Settles O30: the six jumps are one frame, each with its condition on the flags. -/
theorem jumpsLandOnTheirTarget : Obligations.JumpsLandOnTheirTarget := fun s t =>
  ⟨s.complete_jumpIf (fun _ => true) t, s.complete_jumpIf Flags.equal t, s.complete_jumpIf Flags.notEqual t,
    s.complete_jumpIf Flags.greater t, s.complete_jumpIf Flags.smaller t, s.complete_jumpIf Flags.overflow t⟩

end Sys2Proof.Machine
end

section
/-! The requests of a syscall that has no reply to wait for (47_syscall R302, R305, R306, R307): which function A
selects, the frame around one request, and the bytes of a write, cell by cell. -/

namespace Sys2Proof.Machine

/-! ## The function that A selects -/

section
variable {s : State}

theorem exec_syscall_of_a_eq_zero (h : s.reg .a = 0) : exec .syscall s = s.syscallWrite := by
  change execSyscall s = _
  simp [execSyscall, h]

theorem exec_syscall_of_a_eq_two (h : s.reg .a = 2) : exec .syscall s = s.syscallClear := by
  change execSyscall s = _
  simp [execSyscall, h]

theorem exec_syscall_of_a_eq_three (h : s.reg .a = 3) : exec .syscall s = s.syscallPrint := by
  change execSyscall s = _
  simp [execSyscall, h]

theorem exec_syscall_of_four_le_a (h : 4 ≤ (s.reg .a).toNat) :
    exec .syscall s = s.complete Op.syscall.operandLength fun u => .ok u := by
  have other (n : Nat) (hn : n < 4) : s.reg .a ≠ BitVec.ofNat 32 n := by bv_omega
  change execSyscall s = _
  rw [execSyscall, if_neg (other 0 (by decide)), if_neg (other 1 (by decide)), if_neg (other 2 (by decide)),
    if_neg (other 3 (by decide))]

end

/-! ## The frame around a request -/

/-- A syscall has no operand byte, so its body starts from the state before the instruction. -/
theorem State.complete_syscall {s u : State} {body : State → Except FaultCause State} (h : body s = .ok u) :
    s.complete Op.syscall.operandLength body = .next { u with pc := u.pc + 1 } := by
  have start : ({ s with pc := s.pc + BitVec.ofNat 32 Op.syscall.operandLength } : State) = s :=
    congrArg (fun p => ({ s with pc := p } : State)) (BitVec.add_zero s.pc)
  exact State.complete_ok (by rw [start, h])

/-- The request may be read off the state: `request` is a function of it. -/
theorem State.complete_send (s : State) (request : State → HostEvent) :
    CompletesKeepingHeap s (s.complete Op.syscall.operandLength fun u => .ok (u.send (request u)))
      { s with hostLog := s.hostLog ++ [request s], pc := s.pc + 1 } :=
  ⟨State.complete_syscall (u := s.send (request s)) rfl, rfl, fun _ => rfl⟩

theorem exec_syscall_print {s : State} (h : s.reg .a = 3) : CompletesKeepingHeap s (exec .syscall s)
    { s with hostLog := s.hostLog ++ [.printDecimal (s.reg .b)], pc := s.pc + 1 } :=
  exec_syscall_of_a_eq_three h ▸ s.complete_send fun u => .printDecimal (u.reg .b)

/-- Settles O35: the function A selects, in the frame around a request or around nothing. -/
theorem syscallClearPrintAndNoOp : Obligations.SyscallClearPrintAndNoOp := by
  refine fun s => ⟨?clear, exec_syscall_print, ?noOp⟩
  case clear => exact fun h => exec_syscall_of_a_eq_two h ▸ s.complete_send fun _ => .clearScreen
  case noOp =>
    intro h
    rw [exec_syscall_of_four_le_a h]
    exact ⟨State.complete_syscall rfl, rfl, fun _ => rfl⟩

/-! ## The bytes of a write -/

theorem litBytes_eq_ofNat (w : Word) :
    litBytes w = [BitVec.ofNat 8 (w.toNat / 16777216), BitVec.ofNat 8 (w.toNat / 65536),
      BitVec.ofNat 8 (w.toNat / 256), BitVec.ofNat 8 w.toNat] := by
  simp [litBytes, BitVec.extractLsb', Nat.shiftRight_eq_div_pow]

/-- The addresses wrap at 2^32 with the word addition, also where the run of cells does. -/
theorem State.cellBytes_eq_flatMap (s : State) (n : Nat) (a : Word) :
    s.cellBytes n a = (List.range n).flatMap fun k => litBytes (s.memRead (a + BitVec.ofNat 32 k)) := by
  induction n generalizing a with
  | zero => rfl
  | succ n ih =>
    have next (k : Nat) : a + 1#32 + BitVec.ofNat 32 k = a + BitVec.ofNat 32 (k + 1) := by
      rw [BitVec.add_assoc, Nat.add_comm, BitVec.ofNat_add]
    simp [State.cellBytes, ih, next, List.range_succ_eq_map, List.flatMap_map]

theorem State.cellBytes_length (s : State) (n : Nat) (a : Word) : (s.cellBytes n a).length = 4 * n := by
  induction n generalizing a with
  | zero => rfl
  | succ n ih => rw [State.cellBytes, List.length_append, litBytes_length, ih, Nat.mul_succ, Nat.add_comm]

/-- The other branch of R64 is the cell itself. -/
theorem State.memRead_of_hcap_le {s : State} {a : Word} (h : s.hcap ≤ a.toNat) : s.memRead a = 0 := if_pos h

/-- Settles O31: the request carries `cellBytes`, which are the bytes of the cells in the order of R302. -/
theorem syscallWriteSendsTheCells : Obligations.SyscallWriteSendsTheCells := by
  refine ⟨?sends, fun _ _ => State.memRead_of_hcap_le⟩
  intro s bytes ha hbytes
  obtain rfl : bytes = s.cellBytes (s.reg .c).toNat (s.reg .b) := by
    simp only [hbytes, State.cellBytes_eq_flatMap, litBytes_eq_ofNat]
  refine ⟨?completes, s.cellBytes_length _ _⟩
  exact exec_syscall_of_a_eq_zero ha ▸ s.complete_send fun u => .write (u.cellBytes (u.reg .c).toNat (u.reg .b))

end Sys2Proof.Machine
end

section
/-! The decimal text of R306: enough fuel for the number gives all of its digits, each an ASCII digit, the first of
them not 0. -/

namespace Sys2Proof.Machine

theorem asciiDigit_toNat {d : Nat} (h : d < 10) : (BitVec.ofNat 8 (48 + d)).toNat = 48 + d := by
  rw [BitVec.toNat_ofNat, Nat.mod_eq_of_lt (by omega)]

theorem decimalDigits_of_lt_ten {n : Nat} (h : n < 10) (fuel : Nat) :
    decimalDigits (fuel + 1) n = [BitVec.ofNat 8 (48 + n)] :=
  if_pos h

theorem decimalDigits_of_ten_le {n : Nat} (h : 10 ≤ n) (fuel : Nat) :
    decimalDigits (fuel + 1) n = decimalDigits fuel (n / 10) ++ [BitVec.ofNat 8 (48 + n % 10)] :=
  if_neg h.not_gt

/-- The number of a text of decimal digits, most significant first: what R306 asks of the text. -/
def decimalValue (text : List Byte) : Nat := text.foldl (fun n d => 10 * n + (d.toNat - 48)) 0

theorem decimalValue_append_digit (text : List Byte) {d : Nat} (h : d < 10) :
    decimalValue (text ++ [BitVec.ofNat 8 (48 + d)]) = 10 * decimalValue text + d := by
  rw [decimalValue, List.foldl_append, List.foldl_cons, List.foldl_nil, asciiDigit_toNat h, Nat.add_sub_cancel_left,
    ← decimalValue]

theorem decimalValue_decimalDigits {fuel n : Nat} (h : n < 10 ^ fuel) : decimalValue (decimalDigits fuel n) = n := by
  induction fuel generalizing n with
  | zero => exact (Nat.lt_one_iff.1 h).symm
  | succ fuel ih =>
    obtain small | large := Nat.lt_or_ge n 10
    · rw [decimalDigits_of_lt_ten small]
      exact (decimalValue_append_digit [] small).trans (Nat.zero_add n)
    · have quotient : n / 10 < 10 ^ fuel := Nat.div_lt_of_lt_mul (Nat.pow_succ' ▸ h)
      rw [decimalDigits_of_ten_le large, decimalValue_append_digit _ (Nat.mod_lt n (by decide)), ih quotient,
        Nat.div_add_mod]

theorem decimalDigits_ascii {fuel n : Nat} {d : Byte} (h : d ∈ decimalDigits fuel n) :
    48 ≤ d.toNat ∧ d.toNat ≤ 57 := by
  have ascii {m : Nat} (hm : m < 10) (hd : d ∈ [BitVec.ofNat 8 (48 + m)]) : 48 ≤ d.toNat ∧ d.toNat ≤ 57 := by
    rw [List.mem_singleton.1 hd, asciiDigit_toNat hm]
    omega
  induction fuel generalizing n with
  | zero => cases h
  | succ fuel ih =>
    obtain small | large := Nat.lt_or_ge n 10
    · exact ascii small (decimalDigits_of_lt_ten small fuel ▸ h)
    · rw [decimalDigits_of_ten_le large, List.mem_append] at h
      exact h.elim ih (ascii (Nat.mod_lt n (by decide)))

/-- A number of two digits or more begins as its quotient by 10 does, which is not 0 either. -/
theorem decimalDigits_head {fuel n : Nat} (h : n < 10 ^ fuel) (hn : n ≠ 0) :
    ∃ d ∈ (decimalDigits fuel n).head?, d ≠ 48 := by
  induction fuel generalizing n with
  | zero => exact absurd (Nat.lt_one_iff.1 h) hn
  | succ fuel ih =>
    obtain small | large := Nat.lt_or_ge n 10
    · refine ⟨BitVec.ofNat 8 (48 + n), by rw [decimalDigits_of_lt_ten small]; rfl, fun h48 => hn ?_⟩
      have := asciiDigit_toNat small ▸ congrArg BitVec.toNat h48
      exact Nat.add_left_cancel this
    · have quotient : n / 10 < 10 ^ fuel := Nat.div_lt_of_lt_mul (Nat.pow_succ' ▸ h)
      obtain ⟨d, hd, nonzero⟩ := ih quotient (Nat.div_pos large (by decide)).ne'
      rw [decimalDigits_of_ten_le large]
      exact ⟨d, List.mem_head?_append_of_mem_head? hd, nonzero⟩

theorem toNat_lt_ten_pow_ten (v : Word) : v.toNat < 10 ^ 10 := v.isLt.trans (by decide)

theorem State.stdout_of_hostLog_append {s t : State} {e : HostEvent} (h : t.hostLog = s.hostLog ++ [e]) :
    t.stdout = s.stdout ++ e.stdoutBytes := by
  rw [State.stdout, h, List.flatMap_append, List.flatMap_singleton, ← State.stdout]

/-- Settles O36: the request adds the text to the output, and ten digits are enough for any word. -/
theorem printedTextIsTheDecimalValue : Obligations.PrintedTextIsTheDecimalValue := by
  refine ⟨?prints, fun v => ⟨decimalValue_decimalDigits (toNat_lt_ten_pow_ten v), fun _ => decimalDigits_ascii,
    ?noLeadingZero, by decide⟩⟩
  case prints =>
    intro s ha
    obtain ⟨next, -⟩ := exec_syscall_print ha
    exact ⟨_, next, rfl, State.stdout_of_hostLog_append (e := .printDecimal (s.reg .b)) rfl⟩
  case noLeadingZero =>
    intro hv hzero
    have nonzero : v.toNat ≠ 0 := fun h => hv (BitVec.eq_of_toNat_eq h)
    obtain ⟨d, hd, h48⟩ := decimalDigits_head (toNat_lt_ten_pow_ten v) nonzero
    exact h48 (Option.some_inj.1 (hd.symm.trans hzero))

end Sys2Proof.Machine
end

section
/-! Fault entry (60_exceptions R324, R325): a step either leaves `FAULT_CAUSE` as it was or enters a fault from the
state before it, in which at most the syscall port has moved. -/

namespace Sys2Proof.Machine

/-! ## The recorded codes -/

theorem FaultCause.code_toNat_bounds (c : FaultCause) : 1 ≤ c.code.toNat ∧ c.code.toNat ≤ 7 := by cases c <;> decide

/-! ## Entering a fault -/

/-- `t` is `s` with a fault entered at `p`; what passed at the syscall port before the fault stays passed. -/
def EntersFaultAt (p : Word) (s t : State) : Prop :=
  ∃ c sent inbox awaiting,
    t = ({ s with hostLog := s.hostLog ++ sent, inbox := inbox, awaitingReply := awaiting } : State).enterFault c p

theorem State.enterFault_entersFaultAt (s : State) (c : FaultCause) (p : Word) :
    EntersFaultAt p s (s.enterFault c p) :=
  ⟨c, [], s.inbox, s.awaitingReply, by rw [List.append_nil]⟩

/-- An answered read moves the port alone: the request, unless it is out already, and the reply (R303, R304). -/
theorem State.answered_eq (s : State) (bytes : List Byte) (later : List (List Byte)) :
    ∃ sent, s.answered bytes later =
      { s with hostLog := s.hostLog ++ sent, inbox := later, awaitingReply := false } := by
  unfold State.answered State.sendRead
  cases ha : s.awaitingReply with
  | true => exact ⟨[.reply bytes], rfl⟩
  | false => exact ⟨[.read, .reply bytes], by simp [State.receive]⟩

theorem State.answered_entersFaultAt (s : State) (bytes : List Byte) (later : List (List Byte)) (c : FaultCause)
    (p : Word) : EntersFaultAt p s ((s.answered bytes later).enterFault c p) := by
  obtain ⟨sent, e⟩ := s.answered_eq bytes later
  exact ⟨c, sent, later, false, by rw [e]⟩

@[simp] theorem State.answered_faultCause (s : State) (bytes : List Byte) (later : List (List Byte)) :
    (s.answered bytes later).faultCause = s.faultCause := by simp [State.answered]

theorem EntersFaultAt.precise {p : Word} {s t : State} (h : EntersFaultAt p s t) :
    t.phase = .halted ∧ 1 ≤ t.faultCause.toNat ∧ t.faultCause.toNat ≤ 7 ∧ t.faultPc = p ∧
    t = { s with
      faultCause := t.faultCause, faultPc := t.faultPc, phase := .halted,
      hostLog := t.hostLog, inbox := t.inbox, awaitingReply := t.awaitingReply } ∧
    ∃ sent, t.hostLog = s.hostLog ++ sent := by
  obtain ⟨c, sent, inbox, awaiting, rfl⟩ := h
  obtain ⟨low, high⟩ := c.code_toNat_bounds
  exact ⟨rfl, low, high, rfl, rfl, sent, rfl⟩

/-! ## A transition keeps the fault status or enters a fault -/

theorem execSyscall_keeps_or_entersFault {s t : State} (h : exec .syscall s = .next t) :
    t.faultCause = s.faultCause ∨ EntersFaultAt s.pc s t := by
  rcases execSyscall_inv h with ⟨-, -, rfl⟩ | ⟨-, bytes, later, u, -, hu, rfl⟩ | ⟨-, bytes, later, -, -, rfl⟩ |
    ⟨-, e, rfl⟩ | ⟨-, rfl⟩
  · exact .inl s.sendRead_faultCause
  · obtain ⟨stored, -⟩ := State.storeBytes_inv hu
    exact .inl (by rw [stored]; exact s.answered_faultCause bytes later)
  · exact .inr (s.answered_entersFaultAt bytes later _ s.pc)
  · exact .inl rfl
  · exact .inl rfl

theorem exec_keeps_or_entersFault {i : Instr} {s t : State} (h : exec i s = .next t) :
    t.faultCause = s.faultCause ∨ EntersFaultAt s.pc s t := by
  by_cases hi : i = .syscall
  · subst hi
    exact execSyscall_keeps_or_entersFault h
  · rcases exec_inv hi h with ⟨u, hu, rfl⟩ | ⟨c, rfl⟩
    · obtain ⟨-, -, -, -, cause, -, -⟩ := (bodyOf_frame hu).control
      exact .inl cause
    · exact .inr (s.enterFault_entersFaultAt c s.pc)

theorem State.runInstruction_keeps_or_entersFault {s t : State} (h : s.runInstruction = .next t) :
    t.faultCause = s.faultCause ∨ EntersFaultAt s.pc s t := by
  rcases State.runInstruction_inv h with ⟨i, rest, -, hx⟩ | ⟨b, rest, -, rfl⟩ | ⟨-, rfl⟩ | ⟨-, rfl⟩
  · exact exec_keeps_or_entersFault hx
  · exact .inl rfl
  · exact .inr (s.enterFault_entersFaultAt _ s.pc)
  · exact .inr (s.enterFault_entersFaultAt _ s.pc)

theorem State.parseHeader_keeps_or_entersFault {s t : State} (h : s.parseHeader = .next t) :
    t.faultCause = s.faultCause ∨ EntersFaultAt 0 s t := by
  rcases State.parseHeader_inv h with hs | ⟨c, -, rfl⟩
  · obtain ⟨scanned, -⟩ := State.scanHeader_inv hs
    exact .inl (by rw [scanned])
  · exact .inr (s.enterFault_entersFaultAt c 0)

/-- A fault of a step records the address of its instruction, or 0 in the header parse (R324). -/
theorem step_keeps_or_entersFault {s t : State} (h : step s = .next t) :
    t.faultCause = s.faultCause ∨ EntersFaultAt (if s.phase = .header then 0 else s.pc) s t := by
  rcases step_inv h with ⟨-, rfl⟩ | ⟨hp, hh⟩ | ⟨-, -, rfl⟩ | ⟨hp, -, hr⟩ | ⟨-, rfl⟩
  · exact .inl (by rw [State.start_eq])
  · rw [if_pos hp]
    exact State.parseHeader_keeps_or_entersFault hh
  · exact .inl rfl
  · rw [if_neg (by simp [hp])]
    exact State.runInstruction_keeps_or_entersFault hr
  · exact .inl rfl

/-- Settles O45: a step that changes `FAULT_CAUSE` has entered a fault, and the state of a fault entry is known. -/
theorem faultsArePrecise : Obligations.FaultsArePrecise := by
  intro s t hs hstep ht
  rcases step_keeps_or_entersFault hstep with kept | entered
  · exact absurd (kept.trans hs) ht
  · exact entered.precise

end Sys2Proof.Machine
end

section
/-! The runs of heap cells that `storeBytes` writes (20_memory R62, R63, R67): what each cell reads afterwards, and the
capacity a run grows to. -/

namespace Sys2Proof.Machine

/-! ## One heap write -/

theorem State.memWrite_canonical {s u : State} {a v : Word} (h : s.memWrite a v = .ok u)
    (hw : Memory.wf s.heap = true) (hf : s.HeapFits) : Memory.wf u.heap = true ∧ u.HeapFits := by
  obtain ⟨-, rfl⟩ := State.memWrite_inv h
  exact ⟨Memory.write_wf hw _ _, Memory.write_within (Memory.within_mono hf (by simp)) _ (by simp)⟩

theorem State.memRead_of_memWrite {s u : State} {a v : Word} (h : s.memWrite a v = .ok u)
    (hw : Memory.wf s.heap = true) (hf : s.HeapFits) (b : Word) :
    u.memRead b = if b = a then v else s.memRead b := by
  obtain ⟨-, rfl⟩ := State.memWrite_inv h
  exact State.memRead_write hw hf a v b

/-! ## A run of heap writes -/

/-- Cell `k + 1` of a run is cell `k` of the run that starts one cell later, also where the addresses wrap. -/
theorem add_one_add_ofNat (a : Word) (k : Nat) : a + 1#32 + BitVec.ofNat 32 k = a + BitVec.ofNat 32 (k + 1) := by
  rw [BitVec.add_assoc, Nat.add_comm k 1, BitVec.ofNat_add]

theorem State.storeBytes_memRead_other {s t : State} {a : Word} {bs : List Byte} (h : s.storeBytes a bs = .ok t)
    (hw : Memory.wf s.heap = true) (hf : s.HeapFits) {b : Word}
    (hb : ∀ k, k < bs.length → b ≠ a + BitVec.ofNat 32 k) : t.memRead b = s.memRead b := by
  induction bs generalizing s a with
  | nil => cases h; rfl
  | cons v bs ih =>
    obtain ⟨u, hu, h⟩ := Except.bind_eq_ok' h
    obtain ⟨uw, uf⟩ := State.memWrite_canonical hu hw hf
    have notFirst : b ≠ a := by simpa using hb 0 (by simp)
    have notLater (k : Nat) (hk : k < bs.length) : b ≠ a + 1#32 + BitVec.ofNat 32 k := by
      rw [add_one_add_ofNat]
      exact hb (k + 1) (by simpa using hk)
    rw [ih h uw uf notLater, State.memRead_of_memWrite hu hw hf, if_neg notFirst]

/-- A byte of the run stands in its cell, unless the run comes round to that cell again. -/
theorem State.storeBytes_memRead_stored {s t : State} {a : Word} {bs : List Byte} (h : s.storeBytes a bs = .ok t)
    (hw : Memory.wf s.heap = true) (hf : s.HeapFits) (k : Nat) (hk : k < bs.length)
    (last : ∀ j, k < j → j < bs.length → a + BitVec.ofNat 32 j ≠ a + BitVec.ofNat 32 k) :
    t.memRead (a + BitVec.ofNat 32 k) = (bs[k]).setWidth 32 := by
  induction bs generalizing s a k with
  | nil => simp at hk
  | cons v bs ih =>
    obtain ⟨u, hu, h⟩ := Except.bind_eq_ok' h
    obtain ⟨uw, uf⟩ := State.memWrite_canonical hu hw hf
    cases k with
    | zero =>
      have notLater (j : Nat) (hj : j < bs.length) : a ≠ a + 1#32 + BitVec.ofNat 32 j := by
        rw [add_one_add_ofNat]
        simpa using (last (j + 1) (by simp) (by simpa using hj)).symm
      simp [State.storeBytes_memRead_other h uw uf notLater, State.memRead_of_memWrite hu hw hf]
    | succ k =>
      rw [← add_one_add_ofNat]
      refine ih h uw uf k (by simpa using hk) fun j hkj hj => ?_
      rw [add_one_add_ofNat, add_one_add_ofNat]
      exact last (j + 1) (by simpa using hkj) (by simpa using hj)

/-- Where the addresses of a run do not wrap, each is the start plus the index. -/
theorem toNat_add_ofNat {a : Word} {k : Nat} (noWrap : a.toNat + k < 4294967296) :
    (a + BitVec.ofNat 32 k).toNat = a.toNat + k := by
  rw [BitVec.toNat_add, BitVec.toNat_ofNat]
  omega

/-- A run whose addresses do not wrap: every byte stands in its cell, and the cells from its end upward read as
before. -/
theorem State.storeBytes_memRead_of_noWrap {s t : State} {a : Word} {bs : List Byte}
    (h : s.storeBytes a bs = .ok t) (hw : Memory.wf s.heap = true) (hf : s.HeapFits)
    (noWrap : a.toNat + bs.length < 4294967296) :
    (∀ (k : Nat) (hk : k < bs.length), t.memRead (a + BitVec.ofNat 32 k) = (bs[k]).setWidth 32) ∧
      ∀ b : Word, a.toNat + bs.length ≤ b.toNat → t.memRead b = s.memRead b := by
  have address (k : Nat) (hk : k < bs.length) : (a + BitVec.ofNat 32 k).toNat = a.toNat + k :=
    toNat_add_ofNat (by omega)
  constructor
  · refine fun k hk => State.storeBytes_memRead_stored h hw hf k hk fun j hkj hj same => ?_
    have := congrArg BitVec.toNat same
    rw [address j hj, address k hk] at this
    omega
  · refine fun b hb => State.storeBytes_memRead_other h hw hf fun k hk same => ?_
    rw [same, address k hk] at hb
    omega

/-- A run that starts at or below the capacity and ends within the capacity or its limit completes, the capacity
growing to the run's end where it was below it (R67). -/
theorem State.storeBytes_ok {s : State} {a : Word} {bs : List Byte} (start : a.toNat ≤ s.hcap)
    (noWrap : a.toNat + bs.length < 4294967296) (limit : a.toNat + bs.length ≤ max s.hcap s.params.heapCapLimit) :
    ∃ t, s.storeBytes a bs = .ok t ∧ t.hcap = max s.hcap (a.toNat + bs.length) := by
  induction bs generalizing s a with
  | nil => exact ⟨s, rfl, by simpa using start⟩
  | cons v bs ih =>
    rw [List.length_cons] at noWrap limit
    have next : (a + 1#32).toNat = a.toNat + 1 := by bv_omega
    have fits : s.CanStore a := by unfold State.CanStore; omega
    obtain ⟨t, stored, cap⟩ := ih (a := a + 1#32)
      (s := { s with hcap := max s.hcap (a.toNat + 1), heap := Memory.write s.heap a.toNat (v.setWidth 32) })
      (by simp only; omega) (by omega) (by simp only; omega)
    refine ⟨t, ?_, ?_⟩
    · rw [State.storeBytes, State.memWrite_ok fits, Except.ok_bind', stored]
    · simp only [next] at cap
      rw [cap, List.length_cons]
      omega

end Sys2Proof.Machine
end

section
/-! The header parse and reset (70_reset_and_hazards R360, R363 to R366): the scan is `storeBytes` of the bytes before
the first sentinel window, followed by the switch to `Run`. -/

namespace Sys2Proof.Machine

/-! ## The header scan -/

theorem State.scanHeader_sentinel (s : State) (i : Nat) (rest : List Byte) :
    s.scanHeader i ([0x1D, 0x1D, 0x1D, 0x1D] ++ rest) = .ok { s with hs := BitVec.ofNat 32 (i + 4), phase := .run } :=
  rfl

/-- A window that is not the sentinel: its first byte is stored and the scan goes on one offset later. -/
theorem State.scanHeader_cons (s : State) (i : Nat) (b : Byte) {bs : List Byte} (long : 3 ≤ bs.length)
    (other : (b :: bs).take 4 ≠ [0x1D, 0x1D, 0x1D, 0x1D]) :
    s.scanHeader i (b :: bs) =
      (s.memWrite (BitVec.ofNat 32 i) (b.setWidth 32) >>= fun u => u.scanHeader (i + 1) bs) := by
  match bs, long with
  | b1 :: b2 :: b3 :: rest, _ =>
    rw [State.scanHeader, if_neg (by simpa using other)]
    cases s.memWrite (BitVec.ofNat 32 i) (b.setWidth 32) <;> rfl

/-- The scan of a header that ends at the image's first sentinel window stores the header's bytes from the scan's
offset upward. -/
theorem State.scanHeader_header (s : State) (i : Nat) (header rest : List Byte)
    (first : ∀ k, k < header.length →
      ((header ++ [0x1D, 0x1D, 0x1D, 0x1D] ++ rest).drop k).take 4 ≠ [0x1D, 0x1D, 0x1D, 0x1D]) :
    s.scanHeader i (header ++ [0x1D, 0x1D, 0x1D, 0x1D] ++ rest) =
      (s.storeBytes (BitVec.ofNat 32 i) header >>= fun u =>
        .ok { u with hs := BitVec.ofNat 32 (i + header.length + 4), phase := .run }) := by
  induction header generalizing s i with
  | nil => exact s.scanHeader_sentinel i rest
  | cons b header ih =>
    have tail (u : State) := ih u (i + 1) fun k hk => first (k + 1) (by simpa using hk)
    have length : i + 1 + header.length = i + (b :: header).length := by simp; omega
    simp only [length] at tail
    have head := s.scanHeader_cons i b (bs := header ++ [0x1D, 0x1D, 0x1D, 0x1D] ++ rest) (by simp; omega)
      (by simpa using first 0 (by simp))
    rw [List.cons_append, List.cons_append, head, State.storeBytes]
    cases s.memWrite (BitVec.ofNat 32 i) (b.setWidth 32) with
    | error c => rfl
    | ok u => rw [Except.ok_bind', Except.ok_bind', tail u, BitVec.ofNat_add]

/-- Where the scan succeeds, the step of a block in `Header` leaves the scan's state. -/
theorem step_of_scanHeader_ok {s t : State} (hp : s.phase = .header) (hL : imageLengthOk s.image.length = true)
    (h : s.scanHeader 0 s.image = .ok t) : step s = .next t := by
  simp only [step, hp, State.parseHeader, hL, if_true, h]

/-- Settles O38: the scan is a run of stores from cell 0, and what such a run leaves in each cell is known. -/
theorem headerParseLoadsTheHeader : Obligations.HeaderParseLoadsTheHeader := by
  intro s header rest hp hw hf image hL first limit
  have short : header.length + 4 < 4294967296 := by
    simp only [imageLengthOk, image, List.length_append, List.length_cons, List.length_nil,
      decide_eq_true_eq] at hL
    omega
  have zero : (0#32).toNat + header.length = header.length := by simp
  obtain ⟨u, stored, cap⟩ := State.storeBytes_ok (s := s) (a := 0#32) (bs := header) (by simp) (by omega)
    (by omega)
  obtain ⟨cells, others⟩ := State.storeBytes_memRead_of_noWrap stored hw hf (by omega)
  obtain ⟨frame, -⟩ := State.storeBytes_inv stored
  rw [zero] at cap others
  rw [cap] at frame
  have scanned := s.scanHeader_header 0 header rest (image ▸ first)
  rw [stored, Except.ok_bind', ← image, Nat.zero_add] at scanned
  refine ⟨_, step_of_scanHeader_ok hp hL scanned, ?_, ?_, fun k hk => ?_, others⟩
  · rw [frame]
  · exact Nat.mod_eq_of_lt short
  · rw [← BitVec.zero_add (BitVec.ofNat 32 k)]
    exact cells k hk

/-! ## Reset -/

@[simp] theorem State.resetBlock_reg (s : State) (r : Reg) : s.resetBlock.reg r = 0 := by
  cases r <;> rfl

/-- No cell is listed after reset, so the invariant's `HeapFits` holds and every cell reads as unlisted (R63). -/
@[simp] theorem State.resetBlock_memRead (s : State) (a : Word) : s.resetBlock.memRead a = 0 :=
  State.memRead_of_heapFits (s := s.resetBlock) rfl a

/-- Settles O42: registers and heap cells by the two lemmas above, every other piece by the field of the reset
state. -/
theorem resetValues : Obligations.ResetValues := fun s =>
  ⟨s.resetBlock_reg, rfl, rfl, rfl, rfl, rfl, rfl, s.resetBlock_memRead, rfl, rfl, rfl, rfl, rfl, rfl⟩

end Sys2Proof.Machine
end

section
/-! Decode and encode (30_encoding R104 to R109): an operand reader takes exactly the bytes of its operands, whatever
follows them, and reads an instruction from no other bytes. -/

namespace Sys2Proof

/-! ## Reading back operand bytes -/

/-- Given these bytes and any others after them, the reader answers the instruction and leaves the others. -/
def ReadsBack (read : List Byte → Decoded) (bytes : List Byte) (i : Instr) : Prop :=
  ∀ rest, read (bytes ++ rest) = .instr i rest

theorem ReadsBack.nil {i : Instr} : ReadsBack (fun bs => .instr i bs) [] i := fun _ => rfl

theorem ReadsBack.reg {k : Reg → List Byte → Decoded} {r : Reg} {bytes : List Byte} {i : Instr}
    (h : ReadsBack (k r) bytes i) : ReadsBack (fun bs => withReg bs k) (r.toByte :: bytes) i :=
  fun rest => (withReg_toByte r (bytes ++ rest) k).trans (h rest)

theorem ReadsBack.lit {k : Word → List Byte → Decoded} {w : Word} {bytes : List Byte} {i : Instr}
    (h : ReadsBack (k w) bytes i) : ReadsBack (fun bs => withLit bs k) (litBytes w ++ bytes) i := by
  intro rest
  rw [List.append_assoc]
  exact (withLit_litBytes w (bytes ++ rest) k).trans (h rest)

theorem ReadsBack.lit_last {k : Word → List Byte → Decoded} {w : Word} {i : Instr} (h : ReadsBack (k w) [] i) :
    ReadsBack (fun bs => withLit bs k) (litBytes w) i := by
  rw [← List.append_nil (litBytes w)]
  exact .lit h

/-- Every format reads its operands in the order in which they are written (R105). -/
theorem decodeOperands_readsBack (i : Instr) :
    ReadsBack (fun bs => decodeOperands i.op bs) (operandBytes i) i := by
  cases i <;> dsimp only [Instr.op, decodeOperands, operandBytes]
  case exit | dup | mathAddStack | mathSubStack | mathMulStack | mathDivStack | bitNotStack | bitAndStack
    | bitOrStack | bitXorStack | syscall => exact .nil
  case pushReg | popReg | bitNotReg => exact .reg .nil
  case movRegReg | mathAddReg | mathSubReg | mathMulReg | mathDivReg | bitAndReg | bitOrReg | bitXorReg
    | cmpRegReg => exact .reg (.reg .nil)
  case pushLit | pushHeap | popHeap | cmpStackLit | jmp | jmpEq | jmpNe | jmpGt | jmpSm | jmpOv =>
    exact .lit_last .nil
  case movLitReg | movHeapReg | cmpRegLit => exact .reg (.lit_last .nil)
  case movRegHeap => exact .lit (.reg .nil)
  case movLitHeap | movHeapHeap => exact .lit (.lit_last .nil)

/-- An opcode byte that the map gives the operation, then the operand bytes. -/
theorem decode_operandBytes {m : OpcodeMap} {o : Byte} {i : Instr} (h : m.find o = some i.op) (rest : List Byte) :
    decode m (o :: (operandBytes i ++ rest)) = .instr i rest :=
  (decode_of_find_some h _).trans (decodeOperands_readsBack i rest)

/-- Settles O1: the opcode of R108 selects the operation, and its operand readers read back the operand bytes. -/
theorem decodeOfEncode : Obligations.DecodeOfEncode := fun i rest => decode_operandBytes (find_opcode i.op) rest

/-- Settles O2: the byte that the encoder picks for the operation is one the map gives it. -/
theorem decodeOfEncodeUnderAnyMap : Obligations.DecodeOfEncodeUnderAnyMap := by
  intro m i rest offered
  obtain ⟨b, hb⟩ := byteFor_of_offers offered
  exact ⟨b :: operandBytes i, by rw [encodeIn, hb]; rfl, decode_operandBytes (find_byteFor hb) rest⟩

/-- Settles O4: each word is the encoding of its instruction, with nothing after it. -/
theorem specWordsDecode : Obligations.SpecWordsDecode :=
  ⟨decodeOfEncode .exit [], decodeOfEncode (.pushLit 3) [], decodeOfEncode (.movLitReg .a 5) [],
    decodeOfEncode (.movRegHeap 16 .a) [], decodeOfEncode (.mathSubReg .c .b) [],
    decodeOfEncode (.bitXorReg .a .b) [], decodeOfEncode (.cmpStackLit 5) [], decodeOfEncode (.jmpNe 18) [],
    decodeOfEncode .syscall []⟩

/-! ## Bytes that decode to an instruction -/

/-- With these bytes already taken, the reader answers an instruction only where they and the bytes it takes are the
instruction's operand bytes. -/
def ReadsOnly (taken : List Byte) (read : List Byte → Decoded) : Prop :=
  ∀ bs i rest, read bs = .instr i rest → taken ++ bs = operandBytes i ++ rest

theorem ReadsOnly.instr {taken : List Byte} {i : Instr} (h : operandBytes i = taken) :
    ReadsOnly taken (fun bs => .instr i bs) := by
  rintro bs _ _ ⟨⟩
  rw [h]

theorem ReadsOnly.reg {taken : List Byte} {k : Reg → List Byte → Decoded}
    (h : ∀ r, ReadsOnly (taken ++ [r.toByte]) (k r)) : ReadsOnly taken (fun bs => withReg bs k) := by
  intro bs i rest hread
  rcases withReg_inv hread with ⟨-, hd⟩ | ⟨_, _, -, -, hd⟩ | ⟨r, later, rfl, hk⟩
  · cases hd
  · cases hd
  · rw [← h r later i rest hk, List.append_assoc, List.singleton_append]

theorem ReadsOnly.lit {taken : List Byte} {k : Word → List Byte → Decoded}
    (h : ∀ w, ReadsOnly (taken ++ litBytes w) (k w)) : ReadsOnly taken (fun bs => withLit bs k) := by
  intro bs i rest hread
  rcases withLit_inv hread with ⟨-, hd⟩ | ⟨w, later, rfl, hk⟩
  · cases hd
  · rw [← h w later i rest hk, List.append_assoc]

/-- An instruction is read from its operand bytes alone, in the layout of its format (R104). -/
theorem decodeOperands_readsOnly (op : Op) : ReadsOnly [] (decodeOperands op) := by
  cases op
  case exit | dup | mathAddStack | mathSubStack | mathMulStack | mathDivStack | bitNotStack | bitAndStack
    | bitOrStack | bitXorStack | syscall => exact .instr rfl
  case pushReg | popReg | bitNotReg => exact .reg fun _ => .instr rfl
  case movRegReg | mathAddReg | mathSubReg | mathMulReg | mathDivReg | bitAndReg | bitOrReg | bitXorReg
    | cmpRegReg => exact .reg fun _ => .reg fun _ => .instr rfl
  case pushLit | pushHeap | popHeap | cmpStackLit | jmp | jmpEq | jmpNe | jmpGt | jmpSm | jmpOv =>
    exact .lit fun _ => .instr rfl
  case movLitReg | movHeapReg | cmpRegLit => exact .reg fun _ => .lit fun _ => .instr rfl
  case movRegHeap => exact .lit fun _ => .reg fun _ => .instr rfl
  case movLitHeap | movHeapHeap => exact .lit fun _ => .lit fun _ => .instr rfl

/-- Settles O3: the opcode byte is the one R108 gives the operation (R109), the bytes after it the operand bytes. -/
theorem onlyEncodingsDecode : Obligations.OnlyEncodingsDecode := by
  intro bs rest i h
  cases bs with
  | nil => cases h
  | cons b bs =>
    cases hb : defaultOpcodeMap.find b with
    | none =>
      rw [decode_of_find_none hb] at h
      cases h
    | some op =>
      rw [decode_of_find_some hb] at h
      have operands : bs = operandBytes i ++ rest := decodeOperands_readsOnly op bs i rest h
      rw [encode, decodeOperands_op h, opcode_of_find hb, operands, List.cons_append]

end Sys2Proof
end

section
/-! Fetch and decode (40_control R141 to R145): reading operands from the window of bytes and fetching them one by one
come to the same instruction, pc or fault; and the step runs what stands at the pc. -/

namespace Sys2Proof.Machine

/-! ## The window and the byte-by-byte fetch -/

/-- What the operand fetches of an operation come to, in the terms of `State.fetchInOrder`. -/
def fetchedOf (f : Except FaultCause (Instr × Word)) : Fetched :=
  match f with
  | .error c => .fault c
  | .ok (i, p) => .instr i p

/-- After `k` operand bytes, with `n` bytes of the window left: reading on in the window and fetching on come to the
same. -/
def FetchesAlike (s : State) (n k : Nat) (read : List Byte → Decoded)
    (fetch : Word → Except FaultCause (Instr × Word)) : Prop :=
  fetchedAt s.pc (read (s.fetchBytes n (s.pc + BitVec.ofNat 32 (k + 1)))) =
    fetchedOf (fetch (s.pc + BitVec.ofNat 32 k))

theorem add_ofNat_add_one (p : Word) (k : Nat) : p + BitVec.ofNat 32 k + 1#32 = p + BitVec.ofNat 32 (k + 1) := by
  rw [BitVec.add_assoc, ← BitVec.ofNat_add]

section
variable {s : State} {n k : Nat}

theorem FetchesAlike.instr {i : Instr} (h : i.op.operandLength = k) :
    FetchesAlike s n k (fun bs => .instr i bs) (fun p => .ok (i, p)) := by
  rw [FetchesAlike, fetchedAt, fetchedOf, h]

/-- The next byte is the same on both sides; where it is missing, both are the fetch fault (R144). -/
theorem FetchesAlike.byte {read : List Byte → Decoded} {f : Byte × Word → Except FaultCause (Instr × Word)}
    (missing : read [] = .outOfBounds)
    (h : ∀ o, FetchesAlike s n (k + 1) (fun bs => read (o :: bs)) (fun p => f (o, p))) :
    FetchesAlike s (n + 1) k read (fun p => (fetchByte s p).bind f) := by
  unfold FetchesAlike
  cases hb : s.imgFetch (s.pc + BitVec.ofNat 32 (k + 1)) with
  | none =>
    simp only [State.fetchBytes, fetchByte, add_ofNat_add_one, hb, missing]
    rfl
  | some o =>
    simp only [State.fetchBytes, fetchByte, add_ofNat_add_one, hb]
    exact h o

theorem fetchByte_bind_bind {α β : Type} (p : Word) (g : Byte × Word → Except FaultCause α)
    (f : α → Except FaultCause β) :
    ((fetchByte s p).bind g).bind f = (fetchByte s p).bind fun x => (g x).bind f := by
  cases fetchByte s p <;> rfl

/-- A register operand is decoded as soon as its byte is fetched (R102). -/
theorem FetchesAlike.reg {read : Reg → List Byte → Decoded} {f : Reg × Word → Except FaultCause (Instr × Word)}
    (h : ∀ r, FetchesAlike s n (k + 1) (read r) (fun p => f (r, p))) :
    FetchesAlike s (n + 1) k (fun bs => withReg bs read) (fun p => (fetchReg s p).bind f) := by
  simp only [fetchReg, fetchByte_bind_bind]
  refine .byte rfl fun o => ?_
  cases hr : Reg.ofByte o with
  | none =>
    simp only [withReg_of_ofByte_none hr, hr]
    rfl
  | some r =>
    simp only [withReg_of_ofByte_some hr, hr]
    exact h r

/-- A literal operand is four bytes, the first missing one of which is the fault (R143, R144). -/
theorem FetchesAlike.lit {read : Word → List Byte → Decoded} {f : Word × Word → Except FaultCause (Instr × Word)}
    (h : ∀ w, FetchesAlike s n (k + 4) (read w) (fun p => f (w, p))) :
    FetchesAlike s (n + 4) k (fun bs => withLit bs read) (fun p => (fetchLit s p).bind f) := by
  simp only [fetchLit, fetchByte_bind_bind]
  refine .byte rfl fun o0 => ?_
  dsimp only
  refine .byte rfl fun o1 => ?_
  dsimp only
  refine .byte rfl fun o2 => ?_
  dsimp only
  exact .byte rfl fun o3 => h (litOfBytes o0 o1 o2 o3)

end

/-- Every format fetches its operands in the order in which the decoder reads them (R105). -/
theorem fetchOperands_alike (s : State) (op : Op) :
    FetchesAlike s 8 0 (fun bs => decodeOperands op bs) (fun p => fetchOperands s op p) := by
  cases op <;> dsimp only [decodeOperands, fetchOperands]
  case exit | dup | mathAddStack | mathSubStack | mathMulStack | mathDivStack | bitNotStack | bitAndStack
    | bitOrStack | bitXorStack | syscall => exact .instr rfl
  case pushReg | popReg | bitNotReg => exact .reg fun _ => .instr rfl
  case movRegReg | mathAddReg | mathSubReg | mathMulReg | mathDivReg | bitAndReg | bitOrReg | bitXorReg
    | cmpRegReg => exact .reg fun _ => .reg fun _ => .instr rfl
  case pushLit | pushHeap | popHeap | cmpStackLit | jmp | jmpEq | jmpNe | jmpGt | jmpSm | jmpOv =>
    exact .lit fun _ => .instr rfl
  case movLitReg | movHeapReg | cmpRegLit => exact .reg fun _ => .lit fun _ => .instr rfl
  case movRegHeap => exact .lit fun _ => .reg fun _ => .instr rfl
  case movLitHeap | movHeapHeap => exact .lit fun _ => .lit fun _ => .instr rfl

/-- Settles O8: the opcode byte is the window's first, and the operands after it are fetched as they are read. -/
theorem windowDecodeIsFetchInOrder : Obligations.WindowDecodeIsFetchInOrder := by
  intro s
  unfold State.fetchDecode State.fetchInOrder maxLength State.fetchBytes
  cases hb : s.imgFetch s.pc with
  | none => rfl
  | some o =>
    cases ho : s.params.opcodeMap.find o with
    | none => simp only [decode_of_find_none ho, fetchedAt, ho]
    | some op =>
      have operands := fetchOperands_alike s op
      rw [FetchesAlike, BitVec.add_zero] at operands
      simp only [decode_of_find_some ho, ho]
      exact operands

/-! ## The step of a running block -/

theorem step_of_fetchDecode {s : State} {i : Instr} {rest : List Byte} (hp : s.phase = .run)
    (hs : s.flags.stop = false) (h : s.fetchDecode = .instr i rest) : step s = exec i s := by
  rw [step_eq_runInstruction hp hs, State.runInstruction, h]

/-- Settles O9: what the fetch decodes is what the step runs. -/
theorem stepRunsTheDecodedInstruction : Obligations.StepRunsTheDecodedInstruction :=
  fun _ _ _ => step_of_fetchDecode

theorem operandBytes_length (i : Instr) : (operandBytes i).length = i.op.operandLength := by
  cases i <;> rfl

theorem operandBytes_length_le (i : Instr) : (operandBytes i).length ≤ 8 := by
  have whole : i.op.operandLength + 1 ≤ 9 := i.op.length_le_max
  rw [operandBytes_length]
  omega

/-- Settles O10: the window cuts the image after nine bytes, and so never inside the instruction. -/
theorem stepRunsTheInstructionInTheImage : Obligations.StepRunsTheInstructionInTheImage := by
  intro s o i rest hp hs ho hL himg
  have window : s.fetchBytes maxLength s.pc =
      o :: (operandBytes i ++ rest.take (8 - (operandBytes i).length)) := by
    rw [State.fetchBytes_eq_take s maxLength s.pc hL, himg, maxLength, List.take_succ_cons, List.take_append,
      List.take_of_length_le (operandBytes_length_le i)]
  exact step_of_fetchDecode hp hs (by rw [State.fetchDecode, window, decode_operandBytes ho])

end Sys2Proof.Machine
end

section
/-! Who writes what (10_state R21, 20_memory R62, 40_control R145): the effect of an instruction's body on registers,
heap and pc, and the bounds of heap and stack that it keeps, put together from the effects of the shared operations. -/

namespace Sys2Proof.Machine

/-! ## The bounds of heap and stack -/

/-- The heap's list is canonical and within a capacity within its limit, the stack within a capacity within its limit:
the part of the invariant that heap and stack operations have to keep. -/
def State.WithinBounds (s : State) : Prop :=
  Memory.wf s.heap = true ∧ s.HeapFits ∧ s.hcap ≤ s.params.heapCapLimit ∧ s.StackFits ∧
    s.scap ≤ s.params.stackCapLimit

theorem State.memWrite_withinBounds {s u : State} {a v : Word} (h : s.memWrite a v = .ok u) (b : s.WithinBounds) :
    u.WithinBounds := by
  obtain ⟨wf, fits, limit, stack⟩ := b
  obtain ⟨uwf, ufits⟩ := State.memWrite_canonical h wf fits
  obtain ⟨canStore, rfl⟩ := State.memWrite_inv h
  refine ⟨uwf, ufits, ?_, stack⟩
  unfold State.CanStore at canStore
  dsimp only
  omega

theorem State.push_stackFits {s u : State} {v : Word} (h : s.push v = .ok u) (fits : s.StackFits) : u.StackFits := by
  obtain ⟨-, rfl⟩ := State.push_inv h
  simp only [State.StackFits, State.pushedCap, List.length_cons] at *
  split <;> omega

theorem State.push_withinBounds {s u : State} {v : Word} (h : s.push v = .ok u) (b : s.WithinBounds) :
    u.WithinBounds := by
  obtain ⟨wf, fits, limit, stackFits, stackLimit⟩ := b
  have ufits := State.push_stackFits h stackFits
  obtain ⟨room, rfl⟩ := State.push_inv h
  refine ⟨wf, fits, limit, ufits, ?_⟩
  unfold State.HasRoom at room
  simp only [State.pushedCap]
  split <;> omega

theorem State.pop_withinBounds {s u : State} {v : Word} (h : s.pop = .ok (v, u)) (b : s.WithinBounds) :
    u.WithinBounds := by
  obtain ⟨wf, fits, limit, stackFits, stackLimit⟩ := b
  obtain ⟨hs, e⟩ := State.pop_inv h
  rw [State.StackFits, hs, List.length_cons] at stackFits
  rw [e]
  exact ⟨wf, fits, limit, Nat.le_of_succ_le stackFits, stackLimit⟩

theorem State.storeBytes_withinBounds {s u : State} {a : Word} {bs : List Byte} (h : s.storeBytes a bs = .ok u)
    (b : s.WithinBounds) : u.WithinBounds := by
  obtain ⟨wf, fits, limit, stack⟩ := b
  obtain ⟨uwf, ufits, ulimit⟩ := State.storeBytes_heap h wf fits limit
  obtain ⟨e, -⟩ := State.storeBytes_inv h
  rw [e]
  exact ⟨uwf, ufits, ulimit, stack⟩

theorem State.scanHeader_withinBounds {s u : State} {i : Nat} {bs : List Byte} (h : s.scanHeader i bs = .ok u)
    (b : s.WithinBounds) : u.WithinBounds := by
  obtain ⟨wf, fits, limit, stack⟩ := b
  obtain ⟨uwf, ufits, ulimit⟩ := State.scanHeader_heap h wf fits limit
  obtain ⟨e, -⟩ := State.scanHeader_inv h
  rw [e]
  exact ⟨uwf, ufits, ulimit, stack⟩

/-! ## The effect of a body -/

/-- What the body of an instruction may do to registers, heap and pc, by what the instruction is, and the bounds it
keeps. -/
structure BodyEffect (i : Instr) (s u : State) : Prop where
  regs : ∀ r, i.destination ≠ some r → u.reg r = s.reg r
  heap : i.mayStore = false → u.heap = s.heap ∧ u.hcap = s.hcap
  pc : i.isJump = false → u.pc = s.pc
  bounds : s.WithinBounds → u.WithinBounds

section
variable {i : Instr} {s t u : State}

theorem BodyEffect.refl : BodyEffect i s s := ⟨fun _ _ => rfl, fun _ => ⟨rfl, rfl⟩, fun _ => rfl, id⟩

theorem BodyEffect.trans (h : BodyEffect i s t) (k : BodyEffect i t u) : BodyEffect i s u where
  regs r hr := (k.regs r hr).trans (h.regs r hr)
  heap hi := ⟨(k.heap hi).1.trans (h.heap hi).1, (k.heap hi).2.trans (h.heap hi).2⟩
  pc hi := (k.pc hi).trans (h.pc hi)
  bounds b := k.bounds (h.bounds b)

theorem BodyEffect.of_push {v : Word} (h : s.push v = .ok u) : BodyEffect i s u := by
  have bounds := State.push_withinBounds h
  obtain ⟨-, rfl⟩ := State.push_inv h
  exact ⟨fun _ _ => rfl, fun _ => ⟨rfl, rfl⟩, fun _ => rfl, bounds⟩

theorem BodyEffect.of_pop {v : Word} (h : s.pop = .ok (v, u)) : BodyEffect i s u := by
  have bounds := State.pop_withinBounds h
  obtain ⟨-, e⟩ := State.pop_inv h
  rw [e] at bounds ⊢
  exact ⟨fun _ _ => rfl, fun _ => ⟨rfl, rfl⟩, fun _ => rfl, bounds⟩

theorem BodyEffect.of_memWrite {a v : Word} (stores : i.mayStore = true) (h : s.memWrite a v = .ok u) :
    BodyEffect i s u := by
  have bounds := State.memWrite_withinBounds h
  obtain ⟨-, rfl⟩ := State.memWrite_inv h
  exact ⟨fun _ _ => rfl, fun no => absurd stores (by simp [no]), fun _ => rfl, bounds⟩

theorem BodyEffect.of_setReg {r : Reg} (dest : i.destination = some r) (v : Word) :
    BodyEffect i s (s.setReg r v) where
  regs q hq := (s.reg_setReg r q v).trans (if_neg fun (same : q = r) => hq (same.symm ▸ dest))
  heap _ := ⟨rfl, rfl⟩
  pc _ := rfl
  bounds b := b

/-- Flags are in no part of the effect. -/
theorem BodyEffect.of_flags (f : Flags) : BodyEffect i s { s with flags := f } :=
  ⟨fun _ _ => rfl, fun _ => ⟨rfl, rfl⟩, fun _ => rfl, id⟩

theorem BodyEffect.of_setOverflow (o : Option Bool) : BodyEffect i s (s.setOverflow o) :=
  s.setOverflow_eq o ▸ .of_flags _

theorem BodyEffect.of_jumpIf (jumps : i.isJump = true) (c : Bool) (target : Word) :
    BodyEffect i s (s.jumpIf c target) := by
  rw [State.jumpIf_eq]
  exact ⟨fun _ _ => rfl, fun _ => ⟨rfl, rfl⟩, fun no => absurd jumps (by simp [no]), id⟩

theorem BodyEffect.of_regForm {f : Word → Word → Except FaultCause AluOut} {ra rb : Reg}
    (dest : i.destination = some ra) (h : s.regForm f ra rb = .ok u) : BodyEffect i s u := by
  obtain ⟨out, -, rfl⟩ := State.regForm_inv h
  exact (BodyEffect.of_setOverflow out.overflow).trans (.of_setReg dest out.value)

theorem BodyEffect.of_stackForm {f : Word → Word → Except FaultCause AluOut} (h : s.stackForm f = .ok u) :
    BodyEffect i s u := by
  obtain ⟨⟨b, s1⟩, pop1, h⟩ := Except.bind_eq_ok' h
  obtain ⟨⟨a, s2⟩, pop2, h⟩ := Except.bind_eq_ok' h
  obtain ⟨out, -, h⟩ := Except.bind_eq_ok' h
  exact (((BodyEffect.of_pop pop1).trans (.of_pop pop2)).trans (.of_setOverflow _)).trans (.of_push h)

theorem bodyOf_effect (h : bodyOf i s = .ok u) : BodyEffect i s u := by
  cases i with
  | exit | cmpRegReg | cmpRegLit => cases h; exact .of_flags _
  | pushLit | pushReg | pushHeap => exact .of_push h
  | popReg r =>
    obtain ⟨⟨v, w⟩, hp, h⟩ := Except.bind_eq_ok' h
    cases h
    exact (BodyEffect.of_pop hp).trans (.of_setReg rfl v)
  | popHeap l =>
    obtain ⟨⟨v, w⟩, hp, h⟩ := Except.bind_eq_ok' h
    exact (BodyEffect.of_pop hp).trans (.of_memWrite rfl h)
  | dup =>
    obtain ⟨v, -, h⟩ := Except.bind_eq_ok' h
    exact .of_push h
  | movLitReg | movHeapReg | movRegReg | bitNotReg => cases h; exact .of_setReg rfl _
  | movLitHeap | movRegHeap | movHeapHeap => exact .of_memWrite rfl h
  | mathAddReg | mathSubReg | mathMulReg | mathDivReg | bitAndReg | bitOrReg | bitXorReg =>
    exact .of_regForm rfl h
  | mathAddStack | mathSubStack | mathMulStack | mathDivStack | bitAndStack | bitOrStack | bitXorStack =>
    exact .of_stackForm h
  | bitNotStack =>
    obtain ⟨⟨v, w⟩, hp, h⟩ := Except.bind_eq_ok' h
    exact (BodyEffect.of_pop hp).trans (.of_push h)
  | cmpStackLit l =>
    obtain ⟨a, -, h⟩ := Except.bind_eq_ok' h
    cases h
    exact .of_flags _
  | jmp | jmpEq | jmpNe | jmpGt | jmpSm | jmpOv => cases h; exact .of_jumpIf rfl _ _
  | syscall => cases h; exact .refl

end

/-! ## Registers, heap and pc after one instruction -/

theorem execSyscall_regs {s t : State} (h : exec .syscall s = .next t) : t.regs = s.regs := by
  have answered_regs (bytes later) : (s.answered bytes later).regs = s.regs := by simp [State.answered]
  rcases execSyscall_inv h with ⟨-, -, rfl⟩ | ⟨-, bytes, later, u, -, hu, rfl⟩ | ⟨-, bytes, later, -, -, rfl⟩ |
    ⟨-, e, rfl⟩ | ⟨-, rfl⟩
  · exact s.sendRead_regs
  · obtain ⟨stored, -⟩ := State.storeBytes_inv hu
    rw [stored]
    exact answered_regs bytes later
  · exact answered_regs bytes later
  · rfl
  · rfl

/-- Settles O47: a body writes its destination alone, a fault and a `syscall` no register. -/
theorem onlyTheDestinationRegisterChanges : Obligations.OnlyTheDestinationRegisterChanges := by
  intro i s t r h notDest
  by_cases hi : i = .syscall
  · subst hi
    exact State.reg_eq_of_regs s t (execSyscall_regs h) r
  · rcases exec_inv hi h with ⟨u, hu, rfl⟩ | ⟨c, rfl⟩
    · exact (bodyOf_effect hu).regs r notDest
    · rfl

/-- Settles O49: a body that does not store leaves the heap's list and capacity alone, and a fault does. -/
theorem onlyStoringInstructionsChangeTheHeap : Obligations.OnlyStoringInstructionsChangeTheHeap := by
  intro i s t h noStore
  have hi : i ≠ .syscall := by rintro rfl; cases noStore
  rcases exec_inv hi h with ⟨u, hu, rfl⟩ | ⟨c, rfl⟩
  · obtain ⟨heap, hcap⟩ := (bodyOf_effect hu).heap noStore
    exact ⟨hcap, State.memRead_congr heap hcap⟩
  · exact ⟨rfl, fun _ => rfl⟩

/-- A `syscall` that neither waits nor faults is one byte long. -/
theorem execSyscall_pc {s t : State} (h : exec .syscall s = .next t) (runs : t.phase = .run)
    (answered : t.awaitingReply = false) : t.pc = s.pc + 1#32 := by
  rcases execSyscall_inv h with ⟨-, -, rfl⟩ | ⟨-, bytes, later, u, -, hu, rfl⟩ | ⟨-, bytes, later, -, -, rfl⟩ |
    ⟨-, e, rfl⟩ | ⟨-, rfl⟩
  · simp at answered
  · obtain ⟨stored, -⟩ := State.storeBytes_inv hu
    rw [stored]
    simp [State.answered]
  · cases runs
  · rfl
  · rfl

/-- Settles O50: the frame advances the pc over the operand bytes and the opcode, a body that does not jump not at
all. -/
theorem pcEndsAtTheNextOpcode : Obligations.PcEndsAtTheNextOpcode := by
  intro i s t h noJump _ runs answered
  by_cases hi : i = .syscall
  · subst hi
    exact execSyscall_pc h runs answered
  · rcases exec_inv hi h with ⟨u, hu, rfl⟩ | ⟨c, rfl⟩
    · dsimp only
      rw [(bodyOf_effect hu).pc noJump, add_ofNat_add_one, Op.length]
    · cases runs

/-! ## The image and what else no step writes -/

/-- The second state has the first's image, base pointer, parameters and header size (R8, R35, R36, R43). -/
def SameProgram (s t : State) : Prop :=
  t.image = s.image ∧ t.bp = s.bp ∧ t.params = s.params ∧ t.hs = s.hs

theorem State.enterFault_sameProgram (s : State) (c : FaultCause) (p : Word) : SameProgram s (s.enterFault c p) :=
  ⟨rfl, rfl, rfl, rfl⟩

theorem State.answered_sameProgram (s : State) (bytes : List Byte) (later : List (List Byte)) :
    SameProgram s (s.answered bytes later) := by
  obtain ⟨sent, e⟩ := s.answered_eq bytes later
  rw [e]
  exact ⟨rfl, rfl, rfl, rfl⟩

theorem execSyscall_sameProgram {s t : State} (h : exec .syscall s = .next t) : SameProgram s t := by
  rcases execSyscall_inv h with ⟨-, -, rfl⟩ | ⟨-, bytes, later, u, -, hu, rfl⟩ | ⟨-, bytes, later, -, -, rfl⟩ |
    ⟨-, e, rfl⟩ | ⟨-, rfl⟩
  · exact ⟨s.sendRead_image, s.sendRead_bp, s.sendRead_params, s.sendRead_hs⟩
  · obtain ⟨stored, -⟩ := State.storeBytes_inv hu
    rw [stored]
    exact s.answered_sameProgram bytes later
  · exact s.answered_sameProgram bytes later
  · exact ⟨rfl, rfl, rfl, rfl⟩
  · exact ⟨rfl, rfl, rfl, rfl⟩

theorem exec_sameProgram {i : Instr} {s t : State} (h : exec i s = .next t) : SameProgram s t := by
  by_cases hi : i = .syscall
  · subst hi
    exact execSyscall_sameProgram h
  · rcases exec_inv hi h with ⟨u, hu, rfl⟩ | ⟨c, rfl⟩
    · obtain ⟨bp, hs, image, -, -, -, params⟩ := (bodyOf_frame hu).control
      exact ⟨image, bp, params, hs⟩
    · exact s.enterFault_sameProgram c s.pc

theorem State.runInstruction_sameProgram {s t : State} (h : s.runInstruction = .next t) : SameProgram s t := by
  rcases State.runInstruction_inv h with ⟨i, rest, -, hx⟩ | ⟨b, rest, -, rfl⟩ | ⟨-, rfl⟩ | ⟨-, rfl⟩
  · exact exec_sameProgram hx
  · exact ⟨rfl, rfl, rfl, rfl⟩
  · exact s.enterFault_sameProgram _ s.pc
  · exact s.enterFault_sameProgram _ s.pc

theorem step_sameProgram {s t : State} (hp : s.phase ≠ .header) (h : step s = .next t) : SameProgram s t := by
  rcases step_inv h with ⟨-, rfl⟩ | ⟨header, -⟩ | ⟨-, -, rfl⟩ | ⟨-, -, hr⟩ | ⟨-, rfl⟩
  · rw [State.start_eq]
    exact ⟨rfl, rfl, rfl, rfl⟩
  · exact absurd header hp
  · exact ⟨rfl, rfl, rfl, rfl⟩
  · exact State.runInstruction_sameProgram hr
  · exact ⟨rfl, rfl, rfl, rfl⟩

/-- The header parse writes the header size, which is what it finds. -/
theorem State.parseHeader_keepsImage {s t : State} (h : s.parseHeader = .next t) :
    t.image = s.image ∧ t.bp = s.bp ∧ t.params = s.params := by
  rcases State.parseHeader_inv h with hs | ⟨c, -, rfl⟩
  · obtain ⟨e, -⟩ := State.scanHeader_inv hs
    rw [e]
    exact ⟨rfl, rfl, rfl⟩
  · exact ⟨rfl, rfl, rfl⟩

/-- Settles O52: a fetch reads the image at an offset by the header size, so where both stay each fetch does. -/
theorem stepsNeverWriteTheImage : Obligations.StepsNeverWriteTheImage := by
  intro s t h
  by_cases hp : s.phase = .header
  · have parsed : s.parseHeader = .next t := by simpa only [step, hp] using h
    obtain ⟨image, bp, params⟩ := State.parseHeader_keepsImage parsed
    exact ⟨image, bp, params, fun other => absurd hp other⟩
  · obtain ⟨image, bp, params, hs⟩ := step_sameProgram hp h
    exact ⟨image, bp, params, fun _ => ⟨hs, fun p => by rw [State.imgFetch, State.imgFetch, image, hs]⟩⟩

end Sys2Proof.Machine
end

section
/-! The machine invariant (10_state, 20_memory, 40_control R150, 45_compare R260, 47_syscall R304): it holds at reset,
every step keeps it, and so does what the host does. -/

namespace Sys2Proof.Machine

/-! ## Parts of the invariant -/

theorem Inv.withinBounds {s : State} (h : Inv s) : s.WithinBounds :=
  ⟨h.heapWf, h.heapFits, h.heapLimit, h.stackFits, h.stackLimit⟩

/-- Outside `Run` no request is out. -/
theorem Inv.not_awaiting {s : State} (h : Inv s) (hp : s.phase ≠ .run) : s.awaitingReply = false := by
  cases ha : s.awaitingReply with
  | false => rfl
  | true => exact absurd (h.waiting ha).1 hp

/-- While a request is out, only the `syscall` that sent it can be fetched. -/
theorem Inv.not_awaiting_of_fetchDecode {s : State} (h : Inv s) (hd : ∀ rest, s.fetchDecode ≠ .instr .syscall rest) :
    s.awaitingReply = false := by
  cases ha : s.awaitingReply with
  | false => rfl
  | true =>
    obtain ⟨-, -, -, rest, fetched⟩ := h.waiting ha
    exact absurd fetched (hd rest)

theorem Inv.not_awaiting_of_a {s : State} (h : Inv s) (ha : s.reg .a ≠ 1#32) : s.awaitingReply = false := by
  cases hw : s.awaitingReply with
  | false => rfl
  | true =>
    obtain ⟨-, -, one, -⟩ := h.waiting hw
    exact absurd one ha

/-- A comparison leaves the ordering flags consistent, whatever they were. -/
theorem Flags.compare_consistent (f : Flags) (a b : Word) : (f.compare a b).Consistent := by
  have opposite := Flags.compare_notEqual_eq_not_equal f a b
  obtain ⟨he, hg, hs⟩ | ⟨he, hg, hs⟩ | ⟨he, hg, hs⟩ := Flags.compare_trichotomy f a b <;>
    simp only [Flags.Consistent, he, hg, hs, opposite] <;> decide

theorem FlagWrite.consistent {i : Instr} {f g : Flags} (h : FlagWrite i f g) (hf : f.Consistent) : g.Consistent := by
  cases h with
  | keeps => exact hf
  | overflow _ v => exact hf
  | compare _ a b => exact Flags.compare_consistent f a b
  | stop _ => exact hf

/-! ## Transitions that keep it -/

/-- A fault of a block that has not stopped and has no request out. -/
theorem Inv.enterFault {s : State} (h : Inv s) (hs : s.flags.stop = false) (hw : s.awaitingReply = false)
    (c : FaultCause) (p : Word) : Inv (s.enterFault c p) where
  params := h.params
  heapWf := h.heapWf
  heapFits := h.heapFits
  heapLimit := h.heapLimit
  stackFits := h.stackFits
  stackLimit := h.stackLimit
  flags := h.flags
  bp := h.bp
  fresh := by rintro (hp | hp) <;> cases hp
  running := by rintro ⟨⟩
  ended := fun _ => .inr ⟨hs, c.code_toNat_bounds⟩
  waiting := fun ha => by rw [State.enterFault_awaitingReply, hw] at ha; cases ha

/-- A transition inside `Run` that keeps what the program runs on, the bounds and the flags' consistency, and leaves no
request out. -/
theorem Inv.keeps_running {s t : State} (h : Inv s) (hp : s.phase = .run) (control : SameControl s t)
    (bounds : t.WithinBounds) (flags : t.flags.Consistent) (hw : t.awaitingReply = false) : Inv t := by
  obtain ⟨bp, hs, image, phase, cause, -, params⟩ := control
  obtain ⟨heapWf, heapFits, heapLimit, stackFits, stackLimit⟩ := bounds
  refine ⟨params ▸ h.params, heapWf, heapFits, heapLimit, stackFits, stackLimit, flags, bp.trans h.bp, ?fresh,
    ?running, ?ended, ?waiting⟩
  case fresh => rw [phase, hp]; rintro (hp | hp) <;> cases hp
  case running => rw [image, hs, cause]; exact fun _ => h.running hp
  case ended => rw [phase, hp]; rintro ⟨⟩
  case waiting => rw [hw]; rintro ⟨⟩

/-- The request goes out at the `syscall` that sends it, and the block stays there. -/
theorem Inv.sendRead {s : State} {rest : List Byte} (h : Inv s) (hp : s.phase = .run) (hs : s.flags.stop = false)
    (ha : s.reg .a = 1#32) (hd : s.fetchDecode = .instr .syscall rest) : Inv s.sendRead := by
  cases hw : s.awaitingReply with
  | true => rwa [State.sendRead, if_pos hw]
  | false =>
    rw [State.sendRead, hw]
    exact { h with waiting := fun _ => ⟨hp, hs, ha, rest, hd⟩ }

/-- The reply takes the request back: nothing is out any more. -/
theorem Inv.answered {s : State} (h : Inv s) (bytes : List Byte) (later : List (List Byte)) :
    Inv (s.answered bytes later) := by
  obtain ⟨sent, e⟩ := s.answered_eq bytes later
  rw [e]
  exact { h with waiting := by rintro ⟨⟩ }

theorem Inv.exec_syscall {s t : State} {rest : List Byte} (h : Inv s) (hp : s.phase = .run)
    (hs : s.flags.stop = false) (hd : s.fetchDecode = .instr .syscall rest) (hx : exec .syscall s = .next t) :
    Inv t := by
  rcases execSyscall_inv hx with ⟨ha, -, rfl⟩ | ⟨-, bytes, later, u, -, hu, rfl⟩ | ⟨-, bytes, later, -, -, rfl⟩ |
    ⟨ha, e, rfl⟩ | ⟨ha, rfl⟩
  · exact h.sendRead hp hs ha hd
  · have received := h.answered bytes later
    have bounds := State.storeBytes_withinBounds hu received.withinBounds
    have flags := State.storeBytes_flags hu
    obtain ⟨stored, -⟩ := State.storeBytes_inv hu
    refine received.keeps_running (by simp [State.answered, hp]) ?control bounds (flags ▸ received.flags) ?answered
    case control => rw [stored]; exact ⟨rfl, rfl, rfl, rfl, rfl, rfl, rfl⟩
    case answered => rw [stored]; rfl
  · exact (h.answered bytes later).enterFault (by simp [State.answered, hs]) rfl _ _
  · exact h.keeps_running hp ⟨rfl, rfl, rfl, rfl, rfl, rfl, rfl⟩ h.withinBounds h.flags (h.not_awaiting_of_a ha)
  · exact h.keeps_running hp ⟨rfl, rfl, rfl, rfl, rfl, rfl, rfl⟩ h.withinBounds h.flags (h.not_awaiting_of_a ha)

theorem Inv.exec {i : Instr} {s t : State} {rest : List Byte} (h : Inv s) (hp : s.phase = .run)
    (hs : s.flags.stop = false) (hd : s.fetchDecode = .instr i rest) (hx : exec i s = .next t) : Inv t := by
  by_cases hi : i = .syscall
  · subst hi
    exact h.exec_syscall hp hs hd hx
  · have hw : s.awaitingReply = false := h.not_awaiting_of_fetchDecode fun rest' other => by
      rw [hd] at other
      exact hi (Decoded.instr.inj other).1
    rcases exec_inv hi hx with ⟨u, hu, rfl⟩ | ⟨c, rfl⟩
    · have frame := bodyOf_frame hu
      obtain ⟨-, -, waits⟩ := frame.port
      have bounds := (bodyOf_effect hu).bounds h.withinBounds
      have flags := (bodyOf_flagWrite hu).consistent h.flags
      exact h.keeps_running hp frame.control bounds flags (waits.trans hw)
    · exact h.enterFault hs hw c s.pc

theorem Inv.runInstruction {s t : State} (h : Inv s) (hp : s.phase = .run) (hs : s.flags.stop = false)
    (hr : s.runInstruction = .next t) : Inv t := by
  rcases State.runInstruction_inv hr with ⟨i, rest, hd, hx⟩ | ⟨b, rest, hd, rfl⟩ | ⟨hd, rfl⟩ | ⟨hd, rfl⟩
  · exact h.exec hp hs hd hx
  · exact h.keeps_running hp ⟨rfl, rfl, rfl, rfl, rfl, rfl, rfl⟩ h.withinBounds h.flags
      (h.not_awaiting_of_fetchDecode (by simp [hd]))
  · exact h.enterFault hs (h.not_awaiting_of_fetchDecode (by simp [hd])) _ _
  · exact h.enterFault hs (h.not_awaiting_of_fetchDecode (by simp [hd])) _ _

theorem Inv.start {s : State} (h : Inv s) : Inv s.start := by
  by_cases hp : s.phase = .reset
  · rw [State.start_eq, if_pos hp]
    exact { h with
      fresh := fun _ => h.fresh (.inl hp)
      running := by rintro ⟨⟩
      ended := by rintro ⟨⟩
      waiting := fun ha => absurd (h.waiting ha).1 (by simp [hp]) }
  · rwa [State.start_eq, if_neg hp]

/-- The parse accepted the image's length before it scanned it. -/
theorem State.imageLengthOk_of_parseHeader {s t : State} (h : s.parseHeader = .next t) :
    imageLengthOk s.image.length = true := by
  unfold State.parseHeader at h
  split at h
  · assumption
  · cases h

theorem Inv.parseHeader {s t : State} (h : Inv s) (hp : s.phase = .header) (hh : s.parseHeader = .next t) :
    Inv t := by
  obtain ⟨-, -, -, -, -, stop, cause⟩ := h.fresh (.inr hp)
  have hw := h.not_awaiting (by simp [hp])
  have hL := State.imageLengthOk_of_parseHeader hh
  rcases State.parseHeader_inv hh with scanned | ⟨c, -, rfl⟩
  · obtain ⟨heapWf, heapFits, heapLimit, stackFits, stackLimit⟩ :=
      State.scanHeader_withinBounds scanned h.withinBounds
    obtain ⟨low, high⟩ := State.scanHeader_hs scanned (by simpa [imageLengthOk] using hL)
    obtain ⟨e, -⟩ := State.scanHeader_inv scanned
    rw [e] at heapLimit stackFits stackLimit ⊢
    exact {
      params := h.params
      heapWf, heapFits, heapLimit, stackFits, stackLimit
      flags := h.flags
      bp := h.bp
      fresh := by rintro (hp | hp) <;> cases hp
      running := fun _ => ⟨hL, low, by simpa using high, cause⟩
      ended := by rintro ⟨⟩
      waiting := fun ha => by simp [hw] at ha }
  · exact h.enterFault stop hw c 0#32

theorem Inv.halt {s : State} (h : Inv s) (hp : s.phase = .run) (hs : s.flags.stop = true) :
    Inv { s with phase := .halted } := by
  obtain ⟨-, -, -, cause⟩ := h.running hp
  exact { h with
    fresh := by rintro (hp | hp) <;> cases hp
    running := by rintro ⟨⟩
    ended := fun _ => .inl ⟨hs, cause⟩
    waiting := fun ha => by
      obtain ⟨-, running, -⟩ := h.waiting ha
      rw [hs] at running
      cases running }

/-- Settles O54: by the cases of a transition. -/
theorem everyStepKeepsTheInvariant : Obligations.EveryStepKeepsTheInvariant := by
  intro s t h hstep
  rcases step_inv hstep with ⟨-, rfl⟩ | ⟨hp, hh⟩ | ⟨hp, hs, rfl⟩ | ⟨hp, hs, hr⟩ | ⟨-, rfl⟩
  · exact h.start
  · exact h.parseHeader hp hh
  · exact h.halt hp hs
  · exact h.runInstruction hp hs hr
  · exact h

/-! ## Reset and the host -/

theorem inv_resetWith {p : Params} (hp : p.wellFormed = true) (image : List Byte) : Inv (State.resetWith p image) := by
  obtain ⟨heap, stack⟩ : p.heapInitCap ≤ p.heapCapLimit ∧ p.stackInitCap ≤ p.stackCapLimit := by
    simpa [Params.wellFormed] using hp
  exact {
    params := hp
    heapWf := rfl
    heapFits := rfl
    heapLimit := heap
    stackFits := Nat.zero_le _
    stackLimit := stack
    flags := ⟨rfl, rfl, rfl⟩
    bp := rfl
    fresh := fun _ => ⟨rfl, rfl, rfl, rfl, rfl, rfl, rfl⟩
    running := by rintro ⟨⟩
    ended := by rintro ⟨⟩
    waiting := by rintro ⟨⟩ }

/-- Settles O53: with nothing on heap or stack, the bounds are those of R8 on the parameters. -/
theorem invariantHoldsAtReset : Obligations.InvariantHoldsAtReset :=
  ⟨fun _ image hp => inv_resetWith hp image, inv_resetWith (by decide) []⟩

theorem Inv.hostReply {s : State} (h : Inv s) (bytes : List Byte) : Inv (s.hostReply bytes) :=
  { h with }

/-- A load comes while no instruction runs, and no other part of the invariant speaks of the image. -/
theorem Inv.load {s t : State} (h : Inv s) {image : List Byte} (hl : s.load image = .next t) : Inv t := by
  obtain ⟨hp, -, rfl⟩ := State.load_inv hl
  have notRunning : s.phase ≠ .run := by rcases hp with hp | hp <;> simp [hp]
  exact { h with
    running := fun running => absurd running notRunning
    waiting := fun ha => absurd (h.waiting ha).1 notRunning }

/-- Settles O55: each input of the host by the one field it writes, and reset as the reset state. -/
theorem hostInputsKeepTheInvariant : Obligations.HostInputsKeepTheInvariant :=
  fun s h => ⟨h.start, inv_resetWith h.params s.image, h.hostReply, fun _ _ => h.load⟩

/-! ## Start, idling and the totality of a step -/

/-- Settles O41: a start writes the phase, and only in `Reset`. -/
theorem startOnlyFromReset : Obligations.StartOnlyFromReset := by
  refine fun s => ⟨fun hp => ⟨?starts, ?stepStarts⟩, fun hp => ?idles⟩
  case starts => rw [State.start_eq, if_pos hp]
  case stepStarts => simp only [step, hp]
  case idles => rw [State.start_eq, if_neg hp]

/-- A state that a step leaves as it is stays for any number of steps. -/
theorem run_of_step_eq_self {s : State} (h : step s = .next s) (k : Nat) :
    Host.Core.run Sys2Proof.core k s = .next s := by
  induction k with
  | zero => rfl
  | succ k ih =>
    have first : Sys2Proof.core.step s = .next s := h
    simp only [Host.Core.run, first]
    exact ih

/-- Settles O44: a halted block idles, and of the host's inputs only reset writes the phase of a halted block. -/
theorem onlyResetLeavesHalted : Obligations.OnlyResetLeavesHalted := by
  intro s hp
  refine ⟨run_of_step_eq_self ?idles, ?loads, ⟨?starts, fun _ => hp⟩, rfl, rfl, rfl⟩
  case idles => simp only [step, hp]
  case loads =>
    intro image t hl
    obtain ⟨-, -, rfl⟩ := State.load_inv hl
    exact ⟨hp, rfl, rfl⟩
  case starts => rw [State.start_eq, if_neg (by simp [hp])]

theorem State.runInstruction_next (s : State) : ∃ t, s.runInstruction = .next t := by
  unfold State.runInstruction
  split
  · exact exec_next _ s
  all_goals exact ⟨_, rfl⟩

theorem State.parseHeader_next {s : State} (h : imageLengthOk s.image.length = true) :
    ∃ t, s.parseHeader = .next t := by
  rw [State.parseHeader, if_pos h]
  split <;> exact ⟨_, rfl⟩

/-- Settles O46: of the phases only `Header` can refuse, and only an image too long. -/
theorem everyStepAnswers : Obligations.EveryStepAnswers := by
  intro s
  unfold step
  cases hp : s.phase with
  | reset => exact .inl ⟨_, rfl⟩
  | halted => exact .inl ⟨_, rfl⟩
  | run =>
    cases hs : s.flags.stop with
    | true => exact .inl ⟨_, rfl⟩
    | false => exact .inl s.runInstruction_next
  | header =>
    cases hL : imageLengthOk s.image.length with
    | true => exact .inl (State.parseHeader_next hL)
    | false =>
      refine .inr ⟨rfl, ?_, ?_⟩
      · simpa [imageLengthOk] using hL
      · simp [State.parseHeader, hL]

end Sys2Proof.Machine
end

section
/-! Two states that a program cannot tell apart (00_scope R17, 10_state R38, R41): a relation of states that the
operations of a body keep is kept by every body. The syscall port and the capacities are two such differences. -/

namespace Sys2Proof.Machine

/-! ## Answers that are alike -/

/-- Two answers are alike: both complete, in related results, or both raise the same cause, or one of them raises a
cause for which the comparison is given up. -/
inductive Alike {α : Type} (R : α → α → Prop) (excused : FaultCause → Prop) :
    Except FaultCause α → Except FaultCause α → Prop
  | ok {a b : α} (related : R a b) : Alike R excused (.ok a) (.ok b)
  | error (c : FaultCause) : Alike R excused (.error c) (.error c)
  | excusedLeft {c : FaultCause} {y : Except FaultCause α} (h : excused c) : Alike R excused (.error c) y
  | excusedRight {c : FaultCause} {x : Except FaultCause α} (h : excused c) : Alike R excused x (.error c)

theorem Alike.bind {α β : Type} {R : α → α → Prop} {S : β → β → Prop} {excused : FaultCause → Prop}
    {x y : Except FaultCause α} {f g : α → Except FaultCause β} (h : Alike R excused x y)
    (k : ∀ a b, R a b → Alike S excused (f a) (g b)) : Alike S excused (x >>= f) (y >>= g) := by
  cases h with
  | ok related => exact k _ _ related
  | error c => exact .error c
  | excusedLeft h => exact .excusedLeft h
  | excusedRight h => exact .excusedRight h

/-! ## A difference that no body observes -/

/-- The relation leaves alike everything that a body reads, and everything that a body writes keeps the relation. -/
structure Unobserved (R : State → State → Prop) (excused : FaultCause → Prop) : Prop where
  regs {s t : State} : R s t → t.regs = s.regs
  pc {s t : State} : R s t → t.pc = s.pc
  flags {s t : State} : R s t → t.flags = s.flags
  stack {s t : State} : R s t → t.stack = s.stack
  memRead {s t : State} : R s t → ∀ a, t.memRead a = s.memRead a
  setRegs {s t : State} : R s t → ∀ x, R { s with regs := x } { t with regs := x }
  setPc {s t : State} : R s t → ∀ p, R { s with pc := p } { t with pc := p }
  setFlags {s t : State} : R s t → ∀ f, R { s with flags := f } { t with flags := f }
  dropTop {s t : State} {v : Word} {rest : List Word} : R s t → s.stack = v :: rest →
    R { s with stack := rest } { t with stack := rest }
  push {s t : State} : R s t → ∀ v, Alike R excused (s.push v) (t.push v)
  memWrite {s t : State} : R s t → ∀ a v, Alike R excused (s.memWrite a v) (t.memWrite a v)
  enterFault {s t : State} : R s t → ∀ c p, R (s.enterFault c p) (t.enterFault c p)

section
variable {R : State → State → Prop} {excused : FaultCause → Prop} (hR : Unobserved R excused) {s t : State}
  (h : R s t)
include hR h

theorem Unobserved.reg (r : Reg) : t.reg r = s.reg r := State.reg_eq_of_regs s t (hR.regs h) r

theorem Unobserved.setReg (r : Reg) (v : Word) : R (s.setReg r v) (t.setReg r v) := by
  unfold State.setReg
  rw [hR.regs h]
  exact hR.setRegs h _

theorem Unobserved.setOverflow (o : Option Bool) : R (s.setOverflow o) (t.setOverflow o) := by
  rw [State.setOverflow_eq, State.setOverflow_eq, hR.flags h]
  exact hR.setFlags h _

theorem Unobserved.setStop : R s.setStop t.setStop := by
  unfold State.setStop
  rw [hR.flags h]
  exact hR.setFlags h _

theorem Unobserved.compare (a b : Word) : R (s.compare a b) (t.compare a b) := by
  unfold State.compare
  rw [hR.flags h]
  exact hR.setFlags h _

theorem Unobserved.jumpIf (c : Bool) (target : Word) : R (s.jumpIf c target) (t.jumpIf c target) := by
  rw [State.jumpIf_eq, State.jumpIf_eq, hR.pc h]
  exact hR.setPc h _

theorem Unobserved.pop : Alike (fun p q => p.1 = q.1 ∧ R p.2 q.2) excused s.pop t.pop := by
  cases hs : s.stack with
  | nil =>
    rw [State.pop_nil hs, State.pop_nil ((hR.stack h).trans hs)]
    exact .error _
  | cons v rest =>
    rw [State.pop_cons hs, State.pop_cons ((hR.stack h).trans hs)]
    exact .ok ⟨rfl, hR.dropTop h hs⟩

theorem Unobserved.peek : Alike (· = ·) excused s.peek t.peek := by
  cases hs : s.stack with
  | nil =>
    rw [State.peek_nil hs, State.peek_nil ((hR.stack h).trans hs)]
    exact .error _
  | cons v rest =>
    rw [State.peek_cons hs, State.peek_cons ((hR.stack h).trans hs)]
    exact .ok rfl

theorem Unobserved.regForm (f : Word → Word → Except FaultCause AluOut) (ra rb : Reg) :
    Alike R excused (s.regForm f ra rb) (t.regForm f ra rb) := by
  unfold State.regForm
  rw [hR.reg h, hR.reg h]
  cases f (s.reg ra) (s.reg rb) with
  | error c => exact .error c
  | ok out => exact .ok (hR.setReg (hR.setOverflow h out.overflow) ra out.value)

theorem Unobserved.stackForm (f : Word → Word → Except FaultCause AluOut) :
    Alike R excused (s.stackForm f) (t.stackForm f) := by
  refine (hR.pop h).bind ?_
  rintro ⟨b, s1⟩ ⟨_, t1⟩ ⟨rfl, h1⟩
  refine (hR.pop h1).bind ?_
  rintro ⟨a, s2⟩ ⟨_, t2⟩ ⟨rfl, h2⟩
  dsimp only
  cases f a b with
  | error c => exact .error c
  | ok out => exact hR.push (hR.setOverflow h2 out.overflow) out.value

theorem Unobserved.bodyOf (i : Instr) : Alike R excused (bodyOf i s) (bodyOf i t) := by
  cases i with
  | exit => exact .ok (hR.setStop h)
  | pushLit l => exact hR.push h l
  | pushReg r =>
    dsimp only [Machine.bodyOf]
    rw [hR.reg h]
    exact hR.push h _
  | pushHeap l =>
    dsimp only [Machine.bodyOf]
    rw [hR.memRead h]
    exact hR.push h _
  | popReg r =>
    refine (hR.pop h).bind ?_
    rintro ⟨v, s1⟩ ⟨_, t1⟩ ⟨rfl, h1⟩
    exact .ok (hR.setReg h1 r v)
  | popHeap l =>
    refine (hR.pop h).bind ?_
    rintro ⟨v, s1⟩ ⟨_, t1⟩ ⟨rfl, h1⟩
    exact hR.memWrite h1 l v
  | dup =>
    refine (hR.peek h).bind ?_
    rintro v _ rfl
    exact hR.push h v
  | movLitReg rd l => exact .ok (hR.setReg h rd l)
  | movLitHeap ad l => exact hR.memWrite h ad l
  | movHeapReg rd a =>
    dsimp only [Machine.bodyOf]
    rw [hR.memRead h]
    exact .ok (hR.setReg h rd _)
  | movRegHeap ad rs =>
    dsimp only [Machine.bodyOf]
    rw [hR.reg h]
    exact hR.memWrite h ad _
  | movRegReg rd rs =>
    dsimp only [Machine.bodyOf]
    rw [hR.reg h]
    exact .ok (hR.setReg h rd _)
  | movHeapHeap ad a =>
    dsimp only [Machine.bodyOf]
    rw [hR.memRead h]
    exact hR.memWrite h ad _
  | mathAddReg ra rb | mathSubReg ra rb | mathMulReg ra rb | mathDivReg ra rb | bitAndReg ra rb | bitOrReg ra rb
  | bitXorReg ra rb => exact hR.regForm h _ ra rb
  | mathAddStack | mathSubStack | mathMulStack | mathDivStack | bitAndStack | bitOrStack | bitXorStack =>
    exact hR.stackForm h _
  | bitNotReg r =>
    dsimp only [Machine.bodyOf]
    rw [hR.reg h]
    exact .ok (hR.setReg h r _)
  | bitNotStack =>
    refine (hR.pop h).bind ?_
    rintro ⟨a, s1⟩ ⟨_, t1⟩ ⟨rfl, h1⟩
    exact hR.push h1 (aluNot a)
  | cmpRegReg ra rb =>
    dsimp only [Machine.bodyOf]
    rw [hR.reg h, hR.reg h]
    exact .ok (hR.compare h _ _)
  | cmpRegLit ra l =>
    dsimp only [Machine.bodyOf]
    rw [hR.reg h]
    exact .ok (hR.compare h _ l)
  | cmpStackLit l =>
    refine (hR.peek h).bind ?_
    rintro a _ rfl
    exact .ok (hR.compare h a l)
  | jmp target => exact .ok (hR.jumpIf h true target)
  | jmpEq target | jmpNe target | jmpGt target | jmpSm target | jmpOv target =>
    dsimp only [Machine.bodyOf]
    rw [hR.flags h]
    exact .ok (hR.jumpIf h _ target)
  | syscall => exact .ok h

/-- In the frame of an instruction: the next states are related, or one of them is an excused fault. -/
theorem Unobserved.complete {s' t' : State} {n : Nat} {body : State → Except FaultCause State}
    (hbody : ∀ s t, R s t → Alike R excused (body s) (body t)) (hs : s.complete n body = .next s')
    (ht : t.complete n body = .next t') :
    R s' t' ∨ ∃ c, excused c ∧ (s'.faultCause = c.code ∨ t'.faultCause = c.code) := by
  have start : R { s with pc := s.pc + BitVec.ofNat 32 n } { t with pc := t.pc + BitVec.ofNat 32 n } := by
    rw [hR.pc h]
    exact hR.setPc h _
  have answers := hbody _ _ start
  rcases State.complete_inv hs with ⟨u, hu, rfl⟩ | ⟨c, hc, rfl⟩ <;>
    rcases State.complete_inv ht with ⟨w, hw, rfl⟩ | ⟨d, hd, rfl⟩
  · rw [hu, hw] at answers
    cases answers with
    | ok related =>
      refine .inl ?_
      rw [hR.pc related]
      exact hR.setPc related _
  · rw [hu, hd] at answers
    cases answers with
    | excusedRight e => exact .inr ⟨d, e, .inr rfl⟩
  · rw [hc, hw] at answers
    cases answers with
    | excusedLeft e => exact .inr ⟨c, e, .inl rfl⟩
  · rw [hc, hd] at answers
    cases answers with
    | error =>
      refine .inl ?_
      rw [hR.pc h]
      exact hR.enterFault h c s.pc
    | excusedLeft e => exact .inr ⟨c, e, .inl rfl⟩
    | excusedRight e => exact .inr ⟨d, e, .inr rfl⟩

theorem Unobserved.exec {i : Instr} {s' t' : State} (hi : i ≠ .syscall) (hs : exec i s = .next s')
    (ht : exec i t = .next t') :
    R s' t' ∨ ∃ c, excused c ∧ (s'.faultCause = c.code ∨ t'.faultCause = c.code) := by
  rw [exec_eq_complete hi] at hs ht
  exact hR.complete h (fun _ _ h => hR.bodyOf h i) hs ht

end

/-! ## The syscall port -/

/-- The second state is the first with other contents of the port. -/
def OtherPort (log : List HostEvent) (box : List (List Byte)) (w : Bool) (s t : State) : Prop :=
  t = { s with hostLog := log, inbox := box, awaitingReply := w }

theorem otherPort_unobserved (log : List HostEvent) (box : List (List Byte)) (w : Bool) :
    Unobserved (OtherPort log box w) (fun _ => False) where
  regs := by rintro s _ rfl; rfl
  pc := by rintro s _ rfl; rfl
  flags := by rintro s _ rfl; rfl
  stack := by rintro s _ rfl; rfl
  memRead := by rintro s _ rfl a; rfl
  setRegs := by rintro s _ rfl x; rfl
  setPc := by rintro s _ rfl p; rfl
  setFlags := by rintro s _ rfl f; rfl
  dropTop := by rintro s _ v rest rfl -; rfl
  enterFault := by rintro s _ rfl c p; rfl
  push := by
    rintro s _ rfl v
    by_cases room : s.HasRoom
    · rw [State.push_ok room, State.push_ok (by exact room)]
      exact .ok rfl
    · rw [State.push_error room, State.push_error (by exact room)]
      exact .error _
  memWrite := by
    rintro s _ rfl a v
    by_cases fits : s.CanStore a
    · rw [State.memWrite_ok fits, State.memWrite_ok (by exact fits)]
      exact .ok rfl
    · rw [State.memWrite_error fits, State.memWrite_error (by exact fits)]
      exact .error _

theorem exec_samePort {i : Instr} (hi : i ≠ .syscall) {s t : State} (h : exec i s = .next t) : SamePort s t := by
  rcases exec_inv hi h with ⟨u, hu, rfl⟩ | ⟨c, rfl⟩
  · have frame := bodyOf_frame hu
    exact frame.port
  · exact ⟨rfl, rfl, rfl⟩

/-- Settles O37: no body writes the port, and none observes it. -/
theorem onlySyscallReachesTheHost : Obligations.OnlySyscallReachesTheHost := by
  intro i s t log box w hi h
  refine ⟨exec_samePort hi h, ?_⟩
  obtain ⟨t', ht⟩ := exec_next i { s with hostLog := log, inbox := box, awaitingReply := w }
  rcases (otherPort_unobserved log box w).exec rfl hi h ht with same | ⟨_, impossible, -⟩
  · rw [ht, same]
  · exact impossible.elim

end Sys2Proof.Machine
end

section
/-! The read request (47_syscall R303, R304, R308) and the header copy that fails (70_reset_and_hazards R363, R364):
whether a run of stores completes is decided cell by cell from the state before it. -/

namespace Sys2Proof.Machine

/-! ## Runs of stores -/

/-- A store changes no cell's storability: it raises the capacity at most to the limit. -/
theorem State.memWrite_canStore_iff {s u : State} {a v : Word} (h : s.memWrite a v = .ok u) (b : Word) :
    u.CanStore b ↔ s.CanStore b := by
  obtain ⟨fits, rfl⟩ := State.memWrite_inv h
  unfold State.CanStore at *
  dsimp only
  omega

theorem State.storeBytes_ok_of_canStore {s : State} {a : Word} {bs : List Byte}
    (h : ∀ k, k < bs.length → s.CanStore (a + BitVec.ofNat 32 k)) : ∃ t, s.storeBytes a bs = .ok t := by
  induction bs generalizing s a with
  | nil => exact ⟨s, rfl⟩
  | cons v bs ih =>
    have first : s.CanStore a := by simpa using h 0 (by simp)
    have stored := State.memWrite_ok first (v.setWidth 32)
    rw [State.storeBytes, stored, Except.ok_bind']
    refine ih fun k hk => ?_
    rw [State.memWrite_canStore_iff stored, add_one_add_ofNat]
    exact h (k + 1) (by simpa using hk)

theorem State.storeBytes_error_of_not_canStore {s : State} {a : Word} {bs : List Byte} {k : Nat} (hk : k < bs.length)
    (h : ¬ s.CanStore (a + BitVec.ofNat 32 k)) : s.storeBytes a bs = .error .heapExhausted := by
  induction bs generalizing s a k with
  | nil => simp at hk
  | cons v bs ih =>
    rw [State.storeBytes]
    by_cases first : s.CanStore a
    · have stored := State.memWrite_ok first (v.setWidth 32)
      rw [stored, Except.ok_bind']
      cases k with
      | zero => exact absurd first (by simpa using h)
      | succ k =>
        refine ih (k := k) (by simpa using hk) ?_
        rwa [State.memWrite_canStore_iff stored, add_one_add_ofNat]
    · rw [State.memWrite_error first, Except.error_bind']

/-- The capacity covers every cell of the run, and has grown no further than to one of them. -/
theorem State.storeBytes_hcap {s t : State} {a : Word} {bs : List Byte} (h : s.storeBytes a bs = .ok t) :
    (∀ k, k < bs.length → (a + BitVec.ofNat 32 k).toNat < t.hcap) ∧
      (t.hcap = s.hcap ∨ ∃ k, k < bs.length ∧ t.hcap = (a + BitVec.ofNat 32 k).toNat + 1) := by
  induction bs generalizing s a with
  | nil => cases h; simp
  | cons v bs ih =>
    obtain ⟨u, hu, h⟩ := Except.bind_eq_ok' h
    obtain ⟨covered, exact_fit⟩ := ih h
    simp only [add_one_add_ofNat] at covered exact_fit
    obtain ⟨-, grown⟩ := State.storeBytes_inv h
    have ucap : u.hcap = max s.hcap (a.toNat + 1) := by
      obtain ⟨-, rfl⟩ := State.memWrite_inv hu
      rfl
    constructor
    · intro k hk
      cases k with
      | zero => rw [BitVec.add_zero]; omega
      | succ k => exact covered k (by simpa using hk)
    · rcases exact_fit with same | ⟨k, hk, e⟩
      · by_cases inside : a.toNat < s.hcap
        · exact .inl (by omega)
        · exact .inr ⟨0, by simp, by rw [BitVec.add_zero]; omega⟩
      · exact .inr ⟨k + 1, by simpa using hk, e⟩

/-! ## The read request -/

theorem exec_syscall_of_a_eq_one {s : State} (h : s.reg .a = 1) : exec .syscall s = s.syscallRead := by
  change execSyscall s = _
  simp [execSyscall, h]

theorem State.syscallRead_nil {s : State} (h : s.inbox = []) : s.syscallRead = .next s.sendRead := by
  rw [State.syscallRead, h]

theorem State.syscallRead_cons {s : State} {bytes : List Byte} {later : List (List Byte)}
    (h : s.inbox = bytes :: later) :
    s.syscallRead =
      (s.answered bytes later).complete Op.syscall.operandLength fun u => u.storeBytes (u.reg .b) bytes := by
  rw [State.syscallRead, h]
  rfl

theorem State.complete_syscall_error {s : State} {body : State → Except FaultCause State} {c : FaultCause}
    (h : body s = .error c) : s.complete Op.syscall.operandLength body = .next (s.enterFault c s.pc) := by
  have start : ({ s with pc := s.pc + BitVec.ofNat 32 Op.syscall.operandLength } : State) = s :=
    congrArg (fun p => ({ s with pc := p } : State)) (BitVec.add_zero s.pc)
  exact State.complete_error (by rw [start, h])

/-- The port after a read request and its reply; the request is not sent again where it is out already. -/
theorem State.answered_eq_port (s : State) (bytes : List Byte) (later : List (List Byte)) :
    s.answered bytes later = { s with
      hostLog := (if s.awaitingReply then s.hostLog else s.hostLog ++ [.read]) ++ [.reply bytes],
      inbox := later, awaitingReply := false } := by
  unfold State.answered State.sendRead
  cases s.awaitingReply <;> rfl

theorem State.sendRead_eq_port (s : State) :
    s.sendRead = { s with
      awaitingReply := true, hostLog := if s.awaitingReply then s.hostLog else s.hostLog ++ [.read] } := by
  unfold State.sendRead
  cases ha : s.awaitingReply with
  | false => rfl
  | true =>
    obtain ⟨⟩ := s
    cases ha
    rfl

/-- Settles O32: the stores of the reply complete, and what a run of stores leaves in each cell and in the capacity is
known. -/
theorem syscallReadStoresTheReply : Obligations.SyscallReadStoresTheReply := by
  intro s bytes later ha hb hw hf fits
  have port := s.answered_eq_port bytes later
  have regB : (s.answered bytes later).reg .b = s.reg .b := by rw [port]; rfl
  obtain ⟨u, stored⟩ : ∃ u, (s.answered bytes later).storeBytes (s.reg .b) bytes = .ok u :=
    State.storeBytes_ok_of_canStore (by rw [port]; exact fits)
  have next : exec .syscall s = .next { u with pc := u.pc + 1 } := by
    rw [exec_syscall_of_a_eq_one ha, State.syscallRead_cons hb]
    exact State.complete_syscall (by rw [regB, stored])
  rw [port] at stored
  obtain ⟨frame, grown⟩ := State.storeBytes_inv stored
  obtain ⟨covered, exact_fit⟩ := State.storeBytes_hcap stored
  have upc : u.pc = s.pc := by rw [frame]
  refine ⟨_, next, ?state, fun k hk last => ?written, fun a other => ?others, grown, covered, exact_fit⟩
  case state => rw [upc, frame]
  case written => exact State.storeBytes_memRead_stored stored hw hf k hk last
  case others => exact State.storeBytes_memRead_other stored hw hf other

/-- Settles O33: with no reply the request goes out, and where it is out already the step changes nothing. -/
theorem syscallReadWaitsForTheReply : Obligations.SyscallReadWaitsForTheReply := by
  refine ⟨fun s ha hb => ?request, fun s rest k hp hs hd ha hb hw => run_of_step_eq_self ?waits k⟩
  case request =>
    rw [exec_syscall_of_a_eq_one ha, State.syscallRead_nil hb, State.sendRead_eq_port]
    exact ⟨rfl, rfl, fun _ => rfl⟩
  case waits =>
    rw [step_of_fetchDecode hp hs hd, exec_syscall_of_a_eq_one ha, State.syscallRead_nil hb, State.sendRead, if_pos hw]

/-- Settles O34: one cell that cannot be stored to fails the run, from the state with the reply received. -/
theorem syscallReadPastTheLimitFaults : Obligations.SyscallReadPastTheLimitFaults := by
  intro s bytes later k ha hb hk noStore
  have port := s.answered_eq_port bytes later
  have fails : (s.answered bytes later).storeBytes ((s.answered bytes later).reg .b) bytes = .error .heapExhausted :=
    State.storeBytes_error_of_not_canStore hk (by rw [port]; exact noStore)
  rw [exec_syscall_of_a_eq_one ha, State.syscallRead_cons hb, State.complete_syscall_error fails, port]
  rfl

/-! ## The header parse that fails -/

theorem step_of_scanHeader_error {s : State} {c : FaultCause} (hp : s.phase = .header)
    (hL : imageLengthOk s.image.length = true) (h : s.scanHeader 0 s.image = .error c) :
    step s = .next (s.enterFault c 0) := by
  simp only [step, hp, State.parseHeader, hL, if_true, h]
  rfl

theorem State.scanHeader_short (s : State) (i : Nat) {bs : List Byte} (h : bs.length < 4) :
    s.scanHeader i bs = .error .malformedHeader := by
  match bs, h with
  | [], _ | [_], _ | [_, _], _ | [_, _, _], _ => rfl

theorem hasSentinel_cons (b : Byte) (bs : List Byte) :
    hasSentinel (b :: bs) = ((b :: bs).take 4 == [0x1D#8, 0x1D#8, 0x1D#8, 0x1D#8] || hasSentinel bs) := rfl

/-- Without a sentinel the scan stores all bytes but the last three and then finds no window. -/
theorem State.scanHeader_of_noSentinel {s : State} {i : Nat} {bs : List Byte} (none : hasSentinel bs = false)
    (noWrap : i + bs.length < 4294967296) (limit : i + bs.length ≤ max s.hcap s.params.heapCapLimit + 3) :
    s.scanHeader i bs = .error .malformedHeader := by
  induction bs generalizing s i with
  | nil => rfl
  | cons b bs ih =>
    rw [List.length_cons] at noWrap limit
    obtain short | long := Nat.lt_or_ge bs.length 3
    · exact s.scanHeader_short i (Nat.succ_lt_succ short)
    · rw [hasSentinel_cons, Bool.or_eq_false_iff, beq_eq_false_iff_ne] at none
      obtain ⟨here, later⟩ := none
      have address : (BitVec.ofNat 32 i).toNat = i := Nat.mod_eq_of_lt (by omega)
      have fits : s.CanStore (BitVec.ofNat 32 i) := by unfold State.CanStore; omega
      rw [s.scanHeader_cons i b long here, State.memWrite_ok fits, Except.ok_bind']
      exact ih later (by omega) (by dsimp only; omega)

/-- Settles O39: the scan that finds no sentinel is the malformed header, the writes before it discarded. -/
theorem imageWithoutSentinelFaults : Obligations.ImageWithoutSentinelFaults := by
  intro s hp hL none limit
  have length : s.image.length ≤ 4294967295 := by simpa [imageLengthOk] using hL
  exact step_of_scanHeader_error hp hL (State.scanHeader_of_noSentinel none (by omega) (by omega))

/-- Settles O40: the cell at the limit's address is one of the header's and cannot be stored to. -/
theorem headerPastTheHeapLimitFaults : Obligations.HeaderPastTheHeapLimitFaults := by
  intro s header rest hp hcap image hL first past
  have short : header.length + 4 < 4294967296 := by
    simp only [imageLengthOk, image, List.length_append, List.length_cons, List.length_nil,
      decide_eq_true_eq] at hL
    omega
  have noStore : ¬ s.CanStore (0#32 + BitVec.ofNat 32 s.params.heapCapLimit) := by
    unfold State.CanStore
    rw [toNat_add_ofNat (by simp; omega), BitVec.toNat_zero]
    omega
  have scanned := s.scanHeader_header 0 header rest (image ▸ first)
  have fails := State.storeBytes_error_of_not_canStore past noStore
  rw [fails, Except.error_bind', ← image] at scanned
  exact step_of_scanHeader_error hp hL scanned

end Sys2Proof.Machine
end

section
/-! The hidden capacities (10_state R38, R41): two states that differ in capacities and limits alone stay so under every
instruction that exhausts neither, a `syscall` included. -/

namespace Sys2Proof.Machine

/-! ## The relation -/

/-- The state with other capacities and limits. -/
def State.withCapacities (s : State) (scap hcap : Nat) (p : Params) : State :=
  { s with scap := scap, hcap := hcap, params := { p with opcodeMap := s.params.opcodeMap } }

theorem SameButCapacities.exists_withCapacities {s t : State} (h : SameButCapacities s t) :
    ∃ scap hcap p, t = s.withCapacities scap hcap p :=
  ⟨t.scap, t.hcap, t.params, h⟩

/-- The two states differ in capacities and limits alone, and each fits its own capacities. -/
structure CapacitiesApart (s t : State) : Prop where
  same : SameButCapacities s t
  heapFits : s.HeapFits
  heapFits' : t.HeapFits
  stackFits : s.StackFits
  stackFits' : t.StackFits

/-- The two ways of running out, in which the capacities do show. -/
def RunsOutOfCapacity (c : FaultCause) : Prop := c = .heapExhausted ∨ c = .stackExhausted

theorem State.memWrite_heapFits {s u : State} {a v : Word} (h : s.memWrite a v = .ok u) (fits : s.HeapFits) :
    u.HeapFits := by
  obtain ⟨-, rfl⟩ := State.memWrite_inv h
  exact Memory.write_within (Memory.within_mono fits (by simp)) _ (by simp)

section
variable {s t : State} (h : CapacitiesApart s t)
include h

theorem CapacitiesApart.memRead (a : Word) : t.memRead a = s.memRead a := by
  rw [State.memRead_of_heapFits h.heapFits, State.memRead_of_heapFits h.heapFits']
  obtain ⟨_, _, _, rfl⟩ := h.same.exists_withCapacities
  rfl

theorem CapacitiesApart.dropTop {v : Word} {rest : List Word} (hs : s.stack = v :: rest) :
    CapacitiesApart { s with stack := rest } { t with stack := rest } := by
  obtain ⟨scap, _, _, rfl⟩ := h.same.exists_withCapacities
  have fits : s.stack.length ≤ s.scap := h.stackFits
  have fits' : s.stack.length ≤ scap := h.stackFits'
  rw [hs] at fits fits'
  exact ⟨rfl, h.heapFits, h.heapFits', Nat.le_of_succ_le fits, Nat.le_of_succ_le fits'⟩

theorem CapacitiesApart.push (v : Word) :
    Alike CapacitiesApart RunsOutOfCapacity (s.push v) (t.push v) := by
  by_cases room : s.HasRoom
  · by_cases room' : t.HasRoom
    · have pushed := State.push_ok room v
      have pushed' := State.push_ok room' v
      have fits := State.push_stackFits pushed h.stackFits
      have fits' := State.push_stackFits pushed' h.stackFits'
      rw [pushed, pushed']
      refine .ok ⟨?_, h.heapFits, h.heapFits', fits, fits'⟩
      obtain ⟨_, _, _, rfl⟩ := h.same.exists_withCapacities
      rfl
    · rw [State.push_error room']
      exact .excusedRight (.inr rfl)
  · rw [State.push_error room]
    exact .excusedLeft (.inr rfl)

theorem CapacitiesApart.memWrite (a v : Word) :
    Alike CapacitiesApart RunsOutOfCapacity (s.memWrite a v) (t.memWrite a v) := by
  by_cases canStore : s.CanStore a
  · by_cases canStore' : t.CanStore a
    · have stored := State.memWrite_ok canStore v
      have stored' := State.memWrite_ok canStore' v
      have fits := State.memWrite_heapFits stored h.heapFits
      have fits' := State.memWrite_heapFits stored' h.heapFits'
      rw [stored, stored']
      refine .ok ⟨?_, fits, fits', h.stackFits, h.stackFits'⟩
      obtain ⟨_, _, _, rfl⟩ := h.same.exists_withCapacities
      rfl
    · rw [State.memWrite_error canStore']
      exact .excusedRight (.inl rfl)
  · rw [State.memWrite_error canStore]
    exact .excusedLeft (.inl rfl)

/-- An update that reads nothing but what the two states share, and writes no more than that. -/
theorem CapacitiesApart.map (f : State → State)
    (blind : ∀ scap hcap p, f (s.withCapacities scap hcap p) = (f s).withCapacities scap hcap p)
    (keeps : ∀ u, (f u).heap = u.heap ∧ (f u).hcap = u.hcap ∧ (f u).stack = u.stack ∧ (f u).scap = u.scap) :
    CapacitiesApart (f s) (f t) := by
  obtain ⟨heap, hcap, stack, scap⟩ := keeps s
  obtain ⟨heap', hcap', stack', scap'⟩ := keeps t
  refine ⟨?_, ?_, ?_, ?_, ?_⟩
  · obtain ⟨_, _, _, rfl⟩ := h.same.exists_withCapacities
    rw [blind]
    rfl
  · rw [State.HeapFits, heap, hcap]
    exact h.heapFits
  · rw [State.HeapFits, heap', hcap']
    exact h.heapFits'
  · rw [State.StackFits, stack, scap]
    exact h.stackFits
  · rw [State.StackFits, stack', scap']
    exact h.stackFits'

end

theorem capacitiesApart_unobserved : Unobserved CapacitiesApart RunsOutOfCapacity where
  regs h := by obtain ⟨_, _, _, rfl⟩ := h.same.exists_withCapacities; rfl
  pc h := by obtain ⟨_, _, _, rfl⟩ := h.same.exists_withCapacities; rfl
  flags h := by obtain ⟨_, _, _, rfl⟩ := h.same.exists_withCapacities; rfl
  stack h := by obtain ⟨_, _, _, rfl⟩ := h.same.exists_withCapacities; rfl
  memRead h := h.memRead
  setRegs h x := h.map (fun u => { u with regs := x }) (fun _ _ _ => rfl) fun _ => ⟨rfl, rfl, rfl, rfl⟩
  setPc h p := h.map (fun u => { u with pc := p }) (fun _ _ _ => rfl) fun _ => ⟨rfl, rfl, rfl, rfl⟩
  setFlags h f := h.map (fun u => { u with flags := f }) (fun _ _ _ => rfl) fun _ => ⟨rfl, rfl, rfl, rfl⟩
  dropTop h := h.dropTop
  push h := h.push
  memWrite h := h.memWrite
  enterFault h c p := h.map (·.enterFault c p) (fun _ _ _ => rfl) fun _ => ⟨rfl, rfl, rfl, rfl⟩

/-! ## The syscall -/

theorem State.cellBytes_congr {s t : State} (h : ∀ a, t.memRead a = s.memRead a) (n : Nat) (a : Word) :
    t.cellBytes n a = s.cellBytes n a := by
  simp only [State.cellBytes_eq_flatMap, h]

theorem CapacitiesApart.storeBytes {s t : State} (h : CapacitiesApart s t) (a : Word) (bytes : List Byte) :
    Alike CapacitiesApart RunsOutOfCapacity (s.storeBytes a bytes) (t.storeBytes a bytes) := by
  induction bytes generalizing s t a with
  | nil => exact .ok h
  | cons b bytes ih => exact (h.memWrite a _).bind fun _ _ stored => ih stored (a + 1#32)

/-- The selections of a function by register A (R300). -/
theorem syscallFunction_cases (a : Word) : a = 0 ∨ a = 1 ∨ a = 2 ∨ a = 3 ∨ 4 ≤ a.toNat := by
  bv_omega

section
variable {s t : State} (h : CapacitiesApart s t)
include h

theorem CapacitiesApart.send (e : HostEvent) : CapacitiesApart (s.send e) (t.send e) :=
  h.map (·.send e) (fun _ _ _ => rfl) fun _ => ⟨rfl, rfl, rfl, rfl⟩

theorem CapacitiesApart.sendRead : CapacitiesApart s.sendRead t.sendRead := by
  refine h.map State.sendRead (fun _ _ _ => ?_) fun u => by simp
  rw [State.sendRead_eq_port, State.sendRead_eq_port]
  rfl

theorem CapacitiesApart.answered (bytes : List Byte) (later : List (List Byte)) :
    CapacitiesApart (s.answered bytes later) (t.answered bytes later) :=
  h.sendRead.map (·.receive bytes later) (fun _ _ _ => rfl) fun _ => ⟨rfl, rfl, rfl, rfl⟩

theorem CapacitiesApart.execSyscall {s' t' : State} (hs : exec .syscall s = .next s')
    (ht : exec .syscall t = .next t') : CapacitiesApart s' t' ∨
      ∃ c, RunsOutOfCapacity c ∧ (s'.faultCause = c.code ∨ t'.faultCause = c.code) := by
  have unobserved := capacitiesApart_unobserved
  have regA : t.reg .a = s.reg .a := unobserved.reg h .a
  rcases syscallFunction_cases (s.reg .a) with ha | ha | ha | ha | ha
  · rw [exec_syscall_of_a_eq_zero ha] at hs
    rw [exec_syscall_of_a_eq_zero (regA.trans ha)] at ht
    refine unobserved.complete h (fun s t h => ?_) hs ht
    rw [unobserved.reg h, unobserved.reg h, State.cellBytes_congr h.memRead]
    exact .ok (h.send _)
  · rw [exec_syscall_of_a_eq_one ha] at hs
    rw [exec_syscall_of_a_eq_one (regA.trans ha)] at ht
    have inbox : t.inbox = s.inbox := by
      obtain ⟨_, _, _, rfl⟩ := h.same.exists_withCapacities
      rfl
    cases hb : s.inbox with
    | nil =>
      rw [State.syscallRead_nil hb] at hs
      rw [State.syscallRead_nil (inbox.trans hb)] at ht
      cases hs
      cases ht
      exact .inl h.sendRead
    | cons bytes later =>
      rw [State.syscallRead_cons hb] at hs
      rw [State.syscallRead_cons (inbox.trans hb)] at ht
      refine unobserved.complete (h.answered bytes later) (fun s t h => ?_) hs ht
      rw [unobserved.reg h]
      exact h.storeBytes _ bytes
  · rw [exec_syscall_of_a_eq_two ha] at hs
    rw [exec_syscall_of_a_eq_two (regA.trans ha)] at ht
    exact unobserved.complete h (fun s t h => .ok (h.send _)) hs ht
  · rw [exec_syscall_of_a_eq_three ha] at hs
    rw [exec_syscall_of_a_eq_three (regA.trans ha)] at ht
    refine unobserved.complete h (fun s t h => ?_) hs ht
    rw [unobserved.reg h]
    exact .ok (h.send _)
  · rw [exec_syscall_of_four_le_a ha] at hs
    rw [exec_syscall_of_four_le_a (regA.symm ▸ ha)] at ht
    exact unobserved.complete h (fun s t h => .ok h) hs ht

end

/-- Settles O56: the difference is one that no body and no syscall observes, unless a side runs out. -/
theorem capacitiesAreHidden : Obligations.CapacitiesAreHidden := by
  intro i s t s' t' same heapFits heapFits' stackFits stackFits' hs ht s6 s7 t6 t7
  have apart : CapacitiesApart s t := ⟨same, heapFits, heapFits', stackFits, stackFits'⟩
  have next : CapacitiesApart s' t' ∨
      ∃ c, RunsOutOfCapacity c ∧ (s'.faultCause = c.code ∨ t'.faultCause = c.code) := by
    by_cases hi : i = .syscall
    · subst hi
      exact apart.execSyscall hs ht
    · exact capacitiesApart_unobserved.exec apart hi hs ht
  rcases next with apart' | ⟨_, rfl | rfl, e | e⟩
  · exact ⟨apart'.same, apart'.memRead⟩
  · exact absurd e s6
  · exact absurd e t6
  · exact absurd e s7
  · exact absurd e t7

end Sys2Proof.Machine
end

section
/-! The frame of an instruction by what its body does (40_control R145): it leaves the heap alone, pushes, stores,
writes a register, or raises. -/

namespace Sys2Proof.Machine

/-- The state in which the body of an instruction starts: the operand bytes are fetched (R142). -/
def State.operandsFetched (s : State) (i : Instr) : State := { s with pc := s.pc + BitVec.ofNat 32 i.op.operandLength }

section
variable {i : Instr} (hi : i ≠ .syscall) {s u : State}
include hi

/-- The body's state is given with the pc the body started from. -/
theorem exec_keepsHeap (h : bodyOf i (s.operandsFetched i) = .ok { u with pc := (s.operandsFetched i).pc })
    (heap : SameHeap s u) :
    CompletesKeepingHeap s (exec i s) { u with pc := s.pc + BitVec.ofNat 32 i.op.length } := by
  have next : exec i s = _ := (exec_eq_complete hi s).trans (State.complete_ok h)
  have hpc : (s.operandsFetched i).pc + 1#32 = s.pc + BitVec.ofNat 32 i.op.length :=
    add_ofNat_add_one s.pc i.op.operandLength
  exact ⟨hpc ▸ next, heap⟩

theorem exec_push {v : Word} (room : s.HasRoom)
    (h : bodyOf i (s.operandsFetched i) = (s.operandsFetched i).push v) :
    CompletesKeepingHeap s (exec i s)
      { s with stack := v :: s.stack, scap := s.pushedCap, pc := s.pc + BitVec.ofNat 32 i.op.length } :=
  exec_keepsHeap hi (u := { s with stack := v :: s.stack, scap := s.pushedCap })
    (h.trans (State.push_ok (s := s.operandsFetched i) room v)) ⟨rfl, fun _ => rfl⟩

/-- The state before the register write differs from `s` in neither registers nor cells. -/
theorem exec_setReg {rd : Reg} {v : Word}
    (h : bodyOf i (s.operandsFetched i) = .ok (State.setReg { u with pc := (s.operandsFetched i).pc } rd v))
    (hregs : ∀ r, u.reg r = s.reg r) (heap : SameHeap s u) :
    CompletesWritingReg s (exec i s) rd v { u with pc := s.pc + BitVec.ofNat 32 i.op.length } := by
  have hpc : (s.operandsFetched i).pc + 1#32 = s.pc + BitVec.ofNat 32 i.op.length :=
    add_ofNat_add_one s.pc i.op.operandLength
  rw [exec_eq_complete hi, ← hpc]
  exact State.complete_setReg h hregs heap

/-- The state before the store has the heap, the capacity and the limit of `s`. -/
theorem exec_memWrite {ad v : Word}
    (h : bodyOf i (s.operandsFetched i) = State.memWrite { u with pc := (s.operandsFetched i).pc } ad v)
    (heap : u.heap = s.heap) (hcap : u.hcap = s.hcap) (params : u.params = s.params) (canStore : s.CanStore ad)
    (wf : Memory.wf s.heap = true) (fits : s.HeapFits) :
    CompletesStoring s (exec i s) ad v { u with pc := s.pc + BitVec.ofNat 32 i.op.length } := by
  have ucanStore : u.CanStore ad := by
    rw [State.CanStore, hcap, params]
    exact canStore
  have ufits : u.HeapFits := by
    rw [State.HeapFits, heap, hcap]
    exact fits
  have stored := h.trans (State.memWrite_ok (s := { u with pc := (s.operandsFetched i).pc }) ucanStore v)
  have next : exec i s = _ := (exec_eq_complete hi s).trans (State.complete_ok stored)
  have reads (b : Word) := State.memRead_write (heap ▸ wf) ufits ad v b
  refine ⟨_, next, ?value, ⟨?capacity, fun b hb => ?others⟩, ?rest⟩
  case value => exact (reads ad).trans (if_pos rfl)
  case capacity => rw [← hcap]
  case others => exact ((reads b).trans (if_neg hb)).trans (State.memRead_congr heap hcap b)
  case rest => rw [Op.length, ← add_ofNat_add_one s.pc]; rfl

theorem exec_faultsWith {c : FaultCause} (h : bodyOf i (s.operandsFetched i) = .error c) :
    FaultsWith s (exec i s) c.code :=
  exec_eq_complete hi s ▸ State.complete_faultsWith h

/-- A push without room. -/
theorem exec_push_full {v : Word} (full : ¬ s.HasRoom)
    (h : bodyOf i (s.operandsFetched i) = (s.operandsFetched i).push v) : FaultsWith s (exec i s) 7 :=
  exec_faultsWith hi (h.trans (State.push_error (s := s.operandsFetched i) full v))

/-- A store that would grow the heap past the limit. -/
theorem exec_memWrite_full {ad v : Word} (full : ¬ u.CanStore ad)
    (h : bodyOf i (s.operandsFetched i) = u.memWrite ad v) : FaultsWith s (exec i s) 6 :=
  exec_faultsWith hi (h.trans (State.memWrite_error full v))

/-- A body that begins with a pop, on an empty stack. -/
theorem exec_pop_empty {k : Word × State → Except FaultCause State}
    (h : bodyOf i (s.operandsFetched i) = (s.operandsFetched i).pop >>= k) (empty : s.stack = []) :
    FaultsWith s (exec i s) 4 := by
  have pop : (s.operandsFetched i).pop = .error .stackUnderflow := State.pop_nil empty
  exact exec_faultsWith hi (h.trans (by rw [pop, Except.error_bind']))

/-- A body that begins with a peek, on an empty stack. -/
theorem exec_peek_empty {k : Word → Except FaultCause State}
    (h : bodyOf i (s.operandsFetched i) = (s.operandsFetched i).peek >>= k) (empty : s.stack = []) :
    FaultsWith s (exec i s) 4 := by
  have peek : (s.operandsFetched i).peek = .error .stackUnderflow := State.peek_nil empty
  exact exec_faultsWith hi (h.trans (by rw [peek, Except.error_bind']))

/-- A stack form on fewer than two values; the raise discards the pop that went before it (R325). -/
theorem exec_stackForm_short {f : Word → Word → Except FaultCause AluOut}
    (h : bodyOf i (s.operandsFetched i) = (s.operandsFetched i).stackForm f) (short : s.stack.length < 2) :
    FaultsWith s (exec i s) 4 :=
  exec_faultsWith hi (h.trans (State.stackForm_short (s := s.operandsFetched i) f short))

end

end Sys2Proof.Machine
end

section
/-! Exit, the comparisons and the moves (40_control R146, 42_move, 45_compare). -/

namespace Sys2Proof.Machine

/-- Settles O11: Stop and the pc are written, and the step after it is the Stop test. -/
theorem exitSetsStopThenHalts : Obligations.ExitSetsStopThenHalts := by
  intro s
  have completes : CompletesKeepingHeap s (exec .exit s)
      { s with flags := { s.flags with stop := true }, pc := s.pc + 1 } :=
    exec_keepsHeap (by nofun) (u := s.setStop) rfl ⟨rfl, fun _ => rfl⟩
  refine ⟨completes, fun hp t ht => ?_⟩
  cases completes.1.symm.trans ht
  exact step_of_stop hp rfl

/-- Settles O29: one frame around the flags of the comparison, the top of the stack read without a pop. -/
theorem comparesComplete : Obligations.ComparesComplete := by
  refine fun s => ⟨fun ra rb => ?regReg, fun ra l => ?regLit, fun l a rest hs => ?stackLit⟩
  case regReg => exact exec_keepsHeap (by nofun) (u := s.compare (s.reg ra) (s.reg rb)) rfl ⟨rfl, fun _ => rfl⟩
  case regLit => exact exec_keepsHeap (by nofun) (u := s.compare (s.reg ra) l) rfl ⟨rfl, fun _ => rfl⟩
  case stackLit =>
    have top : (s.operandsFetched (.cmpStackLit l)).peek = .ok a := State.peek_cons hs
    exact exec_keepsHeap (by nofun) (u := s.compare a l) (by rw [bodyOf, top]; rfl) ⟨rfl, fun _ => rfl⟩

/-- Settles O19: the three sources of a move to a register. -/
theorem movesToARegisterComplete : Obligations.MovesToARegisterComplete := fun s rd =>
  ⟨fun _ => exec_setReg (by nofun) (u := s) rfl (fun _ => rfl) ⟨rfl, fun _ => rfl⟩,
    fun _ => exec_setReg (by nofun) (u := s) rfl (fun _ => rfl) ⟨rfl, fun _ => rfl⟩,
    fun _ => exec_setReg (by nofun) (u := s) rfl (fun _ => rfl) ⟨rfl, fun _ => rfl⟩⟩

/-- Settles O20: the three sources of a move to the heap, each read before the store. -/
theorem movesToTheHeapComplete : Obligations.MovesToTheHeapComplete := fun s _ canStore wf fits =>
  ⟨fun _ => exec_memWrite (by nofun) (u := s) rfl rfl rfl rfl canStore wf fits,
    fun _ => exec_memWrite (by nofun) (u := s) rfl rfl rfl rfl canStore wf fits,
    fun _ => exec_memWrite (by nofun) (u := s) rfl rfl rfl rfl canStore wf fits⟩

/-- Settles O22: the read laws of one write, and the empty list after reset. -/
theorem heapReadsTheLastWrite : Obligations.HeapReadsTheLastWrite := by
  refine ⟨fun s t a v wf fits h => ?_, State.resetBlock_memRead⟩
  have reads := State.memRead_of_memWrite h wf fits
  refine ⟨(reads a).trans (if_pos rfl), fun b hb => (reads b).trans (if_neg hb), ?_⟩
  obtain ⟨-, rfl⟩ := State.memWrite_inv h
  exact Nat.le_max_right _ _

end Sys2Proof.Machine
end

section
/-! The stack instructions (41_stack, 44_bitwise R246 to R249): they complete with values and room enough, and raise
where a value or the room is missing. -/

namespace Sys2Proof.Machine

/-! ## They complete -/

/-- Settles O12: the three pushed values, in the frame of one push. -/
theorem pushesComplete : Obligations.PushesComplete := fun _ room =>
  ⟨fun _ => exec_push (by nofun) room rfl, fun _ => exec_push (by nofun) room rfl,
    fun _ => exec_push (by nofun) room rfl⟩

/-- With a value on the stack the body of `dup` is a push of the top. -/
theorem bodyOf_dup {s : State} {v : Word} {rest : List Word} (hs : s.stack = v :: rest) : bodyOf .dup s = s.push v := by
  rw [bodyOf, State.peek_cons hs, Except.ok_bind']

/-- Settles O15: the value peeked is pushed on the stack it stands on. -/
theorem dupCompletes : Obligations.DupCompletes := by
  intro s v rest hs room
  have pushed := exec_push (i := .dup) (by nofun) room (bodyOf_dup (s := s.operandsFetched .dup) hs)
  rwa [hs] at pushed

/-- With a value on the stack the body of `pop_reg` writes it to the register. -/
theorem bodyOf_popReg {s : State} {v : Word} {rest : List Word} (hs : s.stack = v :: rest) (r : Reg) :
    bodyOf (.popReg r) s = .ok (State.setReg { s with stack := rest } r v) := by
  rw [bodyOf, State.pop_cons hs]
  rfl

/-- Settles O13: the pop, then the register write. -/
theorem popRegCompletes : Obligations.PopRegCompletes := fun s r _ rest hs =>
  exec_setReg (by nofun) (u := { s with stack := rest }) (bodyOf_popReg (s := s.operandsFetched (.popReg r)) hs r)
    (fun _ => rfl) ⟨rfl, fun _ => rfl⟩

/-- With a value on the stack the body of `pop_heap` stores it. -/
theorem bodyOf_popHeap {s : State} {v : Word} {rest : List Word} (hs : s.stack = v :: rest) (l : Word) :
    bodyOf (.popHeap l) s = State.memWrite { s with stack := rest } l v := by
  rw [bodyOf, State.pop_cons hs, Except.ok_bind']

/-- Settles O14: the pop, then the store. -/
theorem popHeapCompletes : Obligations.PopHeapCompletes := fun s l _ rest hs canStore wf fits =>
  exec_memWrite (by nofun) (u := { s with stack := rest }) (bodyOf_popHeap (s := s.operandsFetched (.popHeap l)) hs l)
    rfl rfl rfl canStore wf fits

/-- A binary form whose ALU operation owns no flag leaves all the flags as they are (R32). -/
theorem State.complete_stackForm_keepsFlags {s : State} {f : Word → Word → Except FaultCause AluOut} {a b v : Word}
    {rest : List Word} (hs : s.stack = b :: a :: rest) (hf : s.StackFits) (h : f a b = .ok ⟨v, none⟩) :
    CompletesKeepingHeap s (s.complete 0 fun u => u.stackForm f) { s with stack := v :: rest, pc := s.pc + 1 } :=
  State.complete_stackForm hs hf h

/-- The complement is pushed onto the stack its operand was popped from, so there is room. -/
theorem bodyOf_bitNotStack {s : State} {a : Word} {rest : List Word} (hs : s.stack = a :: rest) (hf : s.StackFits) :
    bodyOf .bitNotStack s = .ok { s with stack := aluNot a :: rest } := by
  have notFull : rest.length ≠ s.scap := by
    rw [State.StackFits, hs, List.length_cons] at hf
    omega
  rw [bodyOf, State.pop_cons hs, Except.ok_bind']
  exact State.push_of_ne notFull (aluNot a)

/-- Settles O27: the complement as a subtraction, and the binary forms around the word operations. -/
theorem bitwiseStackFormsComplete : Obligations.BitwiseStackFormsComplete := by
  refine ⟨fun s a rest hs hf => ?complement, fun s a b rest hs hf => ⟨?and, ?or, ?xor⟩⟩
  case complement =>
    rw [← aluNot_eq_sub a]
    exact exec_keepsHeap (by nofun) (u := { s with stack := aluNot a :: rest })
      (bodyOf_bitNotStack (s := s.operandsFetched .bitNotStack) hs hf) ⟨rfl, fun _ => rfl⟩
  case and => exact State.complete_stackForm_keepsFlags (f := aluAnd) hs hf rfl
  case or => exact State.complete_stackForm_keepsFlags (f := aluOr) hs hf rfl
  case xor => exact State.complete_stackForm_keepsFlags (f := aluXor) hs hf rfl

/-! ## They raise -/

/-- Settles O16: `dup` peeks before it pushes, so it needs a value to get to the push. -/
theorem pushPastTheLimitFaults : Obligations.PushPastTheLimitFaults := by
  intro s full past
  have noRoom : ¬ s.HasRoom := fun room => absurd (room full) (Nat.not_le_of_lt past)
  refine ⟨fun _ => exec_push_full (by nofun) noRoom rfl, fun _ => exec_push_full (by nofun) noRoom rfl,
    fun _ => exec_push_full (by nofun) noRoom rfl, fun nonempty => ?dup⟩
  obtain ⟨v, rest, hs⟩ := List.exists_cons_of_ne_nil nonempty
  exact exec_push_full (by nofun) noRoom (bodyOf_dup (s := s.operandsFetched .dup) hs)

/-- Settles O17: the five that need one value, and the seven binary forms, which need two. -/
theorem stackUnderflowFaults : Obligations.StackUnderflowFaults := by
  refine fun s => ⟨fun h => ?needOne, fun h => ?needTwo⟩
  case needOne =>
    exact ⟨fun _ => exec_pop_empty (by nofun) rfl h, fun _ => exec_pop_empty (by nofun) rfl h,
      exec_peek_empty (by nofun) rfl h, fun _ => exec_peek_empty (by nofun) rfl h, exec_pop_empty (by nofun) rfl h⟩
  case needTwo =>
    refine ⟨?_, ?_, ?_, ?_, ?_, ?_, ?_⟩ <;> exact exec_stackForm_short (by nofun) rfl h

/-- Settles O21: the four storing instructions; `pop_heap` gets to its store with a value on the stack. -/
theorem storePastTheLimitFaults : Obligations.StorePastTheLimitFaults := by
  intro s ad outside past
  have full : ¬ s.CanStore ad := fun fits => absurd (fits outside) (Nat.not_le_of_lt past)
  refine ⟨fun nonempty => ?popHeap,
    fun l => exec_memWrite_full (by nofun) (u := s.operandsFetched (.movLitHeap ad l)) full rfl,
    fun rs => exec_memWrite_full (by nofun) (u := s.operandsFetched (.movRegHeap ad rs)) full rfl,
    fun a => exec_memWrite_full (by nofun) (u := s.operandsFetched (.movHeapHeap ad a)) full rfl⟩
  obtain ⟨v, rest, hs⟩ := List.exists_cons_of_ne_nil nonempty
  exact exec_memWrite_full (by nofun) (u := { s.operandsFetched (.popHeap ad) with stack := rest }) full
    (bodyOf_popHeap (s := s.operandsFetched (.popHeap ad)) hs ad)

/-! ## Last in, first out -/

theorem State.pushAll_stack {s t : State} {vs : List Word} (h : s.pushAll vs = .ok t) :
    t.stack = vs.reverse ++ s.stack := by
  induction vs generalizing s with
  | nil => cases h; rfl
  | cons v vs ih =>
    obtain ⟨u, hu, h⟩ := Except.bind_eq_ok' h
    obtain ⟨-, rfl⟩ := State.push_inv hu
    rw [ih h, List.reverse_cons, List.append_assoc, List.singleton_append]

/-- As many pops as there are values on top return these values from the top down, and write the stack alone. -/
theorem State.popMany_of_append {s : State} {top rest : List Word} (h : s.stack = top ++ rest) :
    s.popMany top.length = .ok (top, { s with stack := rest }) := by
  induction top generalizing s with
  | nil =>
    obtain rfl : s.stack = rest := h
    rfl
  | cons v top ih =>
    rw [List.cons_append] at h
    rw [List.length_cons, State.popMany, State.pop_cons h]
    simp only [Except.bind, ih (s := { s with stack := top ++ rest }) rfl]

/-- Settles O18: the pushes put the values on top in reverse order, and the pops take the top. -/
theorem popsReturnPushesInReverse : Obligations.PopsReturnPushesInReverse := by
  intro s t vs h
  have stack := State.pushAll_stack h
  refine ⟨stack, ?_⟩
  rw [← List.length_reverse]
  exact State.popMany_of_append stack

end Sys2Proof.Machine
end

section
/-! The boundary forms of the overflow test (43_arithmetic R211): equal to the tests on exact results, and made within
32 bits. -/

namespace Sys2Proof.Machine

theorem toNat_le_maxWord (a : Word) : a.toNat ≤ maxWord := Nat.le_of_lt_succ a.isLt

theorem addOverflows_eq_boundary (a b : Word) : addOverflows a b = decide (maxWord - b.toNat < a.toNat) := by
  have := toNat_le_maxWord b
  rw [addOverflows, decide_eq_decide]
  omega

/-- A zero factor never overflows; for another, the product passes `MAX` just where the quotient of `MAX` is passed. -/
theorem mulOverflows_eq_boundary (a b : Word) :
    mulOverflows a b = (decide (b.toNat ≠ 0) && decide (maxWord / b.toNat < a.toNat)) := by
  rw [mulOverflows]
  obtain zero | pos := Nat.eq_zero_or_pos b.toNat
  · simp [zero]
  · rw [decide_eq_true (Nat.ne_of_gt pos), Bool.true_and, decide_eq_decide, Nat.div_lt_iff_lt_mul pos]

/-- Settles O25: the sum and the product; the difference is tested on the operands as they are. -/
theorem overflowIsTheBoundaryTest : Obligations.OverflowIsTheBoundaryTest :=
  fun a b => ⟨addOverflows_eq_boundary a b, rfl, mulOverflows_eq_boundary a b⟩

end Sys2Proof.Machine
end
